-- ==== Sys2Proof/Word.lean ====
section
/-! DEFINITION. The word types of the machine: bytes, 16-bit words, 12-bit addresses, register
indices (00_scope.md R4, R6). -/

namespace Sys2Proof

/-- A byte: a general register, a timer, a memory cell (10_state.md R11, R16, R19). -/
abbrev Byte := BitVec 8

/-- A 16-bit word: an instruction word, I, IP, the keypad lines (30_encoding.md R60; 10_state.md R13, R14, R24). -/
abbrev Word := BitVec 16

/-- The 12-bit address field NNN (30_encoding.md R62). -/
abbrev Addr12 := BitVec 12

/-- A general register index, the fields X and Y (30_encoding.md R62, R64). -/
abbrev Reg := Fin 16

/-- The flag register VF is register 0xF (10_state.md R12). -/
def vf : Reg := 15

end Sys2Proof
end

