-- ==== Sys2Proof/Syntax.lean ====
section
/-! DEFINITION. The 34 instructions of 30_encoding.md R66, one constructor per row of
spec/opcode_table.json, in the table's order. -/

namespace Sys2Proof

/-- An instruction with its operand fields. The row count of `drw` is a count, checked in
WellFormed.lean (log 33); the unused Y of the shifts is kept, so no bit of a word is lost
(30_encoding.md R70). -/
inductive Instr where
  | cls                               -- 00E0
  | ret                               -- 00EE
  | jp     (nnn : Addr12)             -- 1NNN
  | call   (nnn : Addr12)             -- 2NNN
  | seImm  (x : Reg) (nn : Byte)      -- 3XNN
  | sneImm (x : Reg) (nn : Byte)      -- 4XNN
  | seReg  (x y : Reg)                -- 5XY0
  | ldImm  (x : Reg) (nn : Byte)      -- 6XNN
  | addImm (x : Reg) (nn : Byte)      -- 7XNN
  | ldReg  (x y : Reg)                -- 8XY0
  | orReg  (x y : Reg)                -- 8XY1
  | andReg (x y : Reg)                -- 8XY2
  | xorReg (x y : Reg)                -- 8XY3
  | addReg (x y : Reg)                -- 8XY4
  | subReg (x y : Reg)                -- 8XY5
  | shrReg (x y : Reg)                -- 8XY6
  | subnReg (x y : Reg)               -- 8XY7
  | shlReg (x y : Reg)                -- 8XYE
  | sneReg (x y : Reg)                -- 9XY0
  | ldI    (nnn : Addr12)             -- ANNN
  | jpV0   (nnn : Addr12)             -- BNNN
  | rnd    (x : Reg) (nn : Byte)      -- CXNN
  | drw    (x y : Reg) (n : Nat)      -- DXYN
  | skp    (x : Reg)                  -- EX9E
  | sknp   (x : Reg)                  -- EXA1
  | ldVxDt (x : Reg)                  -- FX07
  | ldVxK  (x : Reg)                  -- FX0A
  | ldDtVx (x : Reg)                  -- FX15
  | ldStVx (x : Reg)                  -- FX18
  | addI   (x : Reg)                  -- FX1E
  | ldF    (x : Reg)                  -- FX29
  | ldB    (x : Reg)                  -- FX33
  | stRegs (x : Reg)                  -- FX55
  | ldRegs (x : Reg)                  -- FX65
deriving DecidableEq, Repr

end Sys2Proof
end

