-- ==== Sys2Proof/Decode.lean ====
section
/-! DEFINITION. The bit-field codec, the two-level decoder (total on all words and all byte lists,
rejecting by name), the encoder, and the opcode map as rows of match and mask (30_encoding.md). -/

namespace Sys2Proof

/-- The codec of 30_encoding.md R61: `len` bits of `w` from bit offset `off`, counted from the
most significant bit, as an unsigned integer. -/
def field (w : Word) (off len : Nat) : Nat :=
  w.toNat / 2 ^ (16 - off - len) % 2 ^ len

/-- `op`, the header, bits 15..12 (30_encoding.md R62). -/
def header (w : Word) : Nat := field w 0 4
/-- `X`, bits 11..8. -/
def fieldX (w : Word) : Reg := Fin.ofNat 16 (field w 4 4)
/-- `Y`, bits 7..4. -/
def fieldY (w : Word) : Reg := Fin.ofNat 16 (field w 8 4)
/-- `N`, bits 3..0. -/
def fieldN (w : Word) : Nat := field w 12 4
/-- `NN`, bits 7..0. -/
def fieldNN (w : Word) : Byte := BitVec.ofNat 8 (field w 8 8)
/-- `NNN`, bits 11..0. -/
def fieldNNN (w : Word) : Addr12 := BitVec.ofNat 12 (field w 4 12)

/-- Why a word, or a list of bytes, is no instruction: the header whose sub-dispatch found no case
(30_encoding.md R68 (a) to (e), R69), or fewer than two bytes (R60). -/
inductive DecodeReject where
  | tooShort
  | header0
  | header5
  | header8
  | header9
  | headerE
  | headerF
deriving DecidableEq, Repr

/-- What a decoder answers: a value, or a named rejection. -/
inductive Decoded (α : Type) where
  | ok (a : α)
  | reject (r : DecodeReject)
deriving DecidableEq, Repr

/-- Header 0x0 dispatches on the full word (30_encoding.md R65, R68 (a)). -/
def decodeHeader0 (w : Word) : Decoded Instr :=
  if w.toNat = 0x00E0 then .ok .cls
  else if w.toNat = 0x00EE then .ok .ret
  else .reject .header0

/-- Header 0x5 requires the low nibble to be 0 (30_encoding.md R69; log 17). -/
def decodeHeader5 (w : Word) : Decoded Instr :=
  if fieldN w = 0 then .ok (.seReg (fieldX w) (fieldY w)) else .reject .header5

/-- Header 0x8 dispatches on the low nibble (30_encoding.md R67, R68 (b); log 18). -/
def decodeHeader8 (w : Word) : Decoded Instr :=
  match fieldN w with
  | 0x0 => .ok (.ldReg (fieldX w) (fieldY w))
  | 0x1 => .ok (.orReg (fieldX w) (fieldY w))
  | 0x2 => .ok (.andReg (fieldX w) (fieldY w))
  | 0x3 => .ok (.xorReg (fieldX w) (fieldY w))
  | 0x4 => .ok (.addReg (fieldX w) (fieldY w))
  | 0x5 => .ok (.subReg (fieldX w) (fieldY w))
  | 0x6 => .ok (.shrReg (fieldX w) (fieldY w))
  | 0x7 => .ok (.subnReg (fieldX w) (fieldY w))
  | 0xE => .ok (.shlReg (fieldX w) (fieldY w))
  | _   => .reject .header8

/-- Header 0x9 requires the low nibble to be 0 (30_encoding.md R69; log 17). -/
def decodeHeader9 (w : Word) : Decoded Instr :=
  if fieldN w = 0 then .ok (.sneReg (fieldX w) (fieldY w)) else .reject .header9

/-- Header 0xE dispatches on the low byte (30_encoding.md R68 (c)). -/
def decodeHeaderE (w : Word) : Decoded Instr :=
  match field w 8 8 with
  | 0x9E => .ok (.skp (fieldX w))
  | 0xA1 => .ok (.sknp (fieldX w))
  | _    => .reject .headerE

/-- Header 0xF dispatches on the low byte (30_encoding.md R68 (d)). -/
def decodeHeaderF (w : Word) : Decoded Instr :=
  match field w 8 8 with
  | 0x07 => .ok (.ldVxDt (fieldX w))
  | 0x0A => .ok (.ldVxK (fieldX w))
  | 0x15 => .ok (.ldDtVx (fieldX w))
  | 0x18 => .ok (.ldStVx (fieldX w))
  | 0x1E => .ok (.addI (fieldX w))
  | 0x29 => .ok (.ldF (fieldX w))
  | 0x33 => .ok (.ldB (fieldX w))
  | 0x55 => .ok (.stRegs (fieldX w))
  | 0x65 => .ok (.ldRegs (fieldX w))
  | _    => .reject .headerF

/-- The decoder on one word (30_encoding.md R65): first the header, then the sub-dispatch. The
header is below 16, so the last arm is header 0xF. -/
def decodeWord (w : Word) : Decoded Instr :=
  match header w with
  | 0x0 => decodeHeader0 w
  | 0x1 => .ok (.jp (fieldNNN w))
  | 0x2 => .ok (.call (fieldNNN w))
  | 0x3 => .ok (.seImm (fieldX w) (fieldNN w))
  | 0x4 => .ok (.sneImm (fieldX w) (fieldNN w))
  | 0x5 => decodeHeader5 w
  | 0x6 => .ok (.ldImm (fieldX w) (fieldNN w))
  | 0x7 => .ok (.addImm (fieldX w) (fieldNN w))
  | 0x8 => decodeHeader8 w
  | 0x9 => decodeHeader9 w
  | 0xA => .ok (.ldI (fieldNNN w))
  | 0xB => .ok (.jpV0 (fieldNNN w))
  | 0xC => .ok (.rnd (fieldX w) (fieldNN w))
  | 0xD => .ok (.drw (fieldX w) (fieldY w) (fieldN w))
  | 0xE => decodeHeaderE w
  | _   => decodeHeaderF w

/-- Two bytes make a word, the byte at the lower address the more significant (20_memory.md R43). -/
def wordOfBytes (b0 b1 : Byte) : Word := BitVec.ofNat 16 (256 * b0.toNat + b1.toNat)

/-- The two bytes of a word in memory order (20_memory.md R43). -/
def bytesOfWord (w : Word) : List Byte :=
  [BitVec.ofNat 8 (w.toNat / 256), BitVec.ofNat 8 (w.toNat % 256)]

/-- The decoder on a list of bytes: the instruction and the bytes after it (30_encoding.md R60). -/
def decodeBytes : List Byte → Decoded (Instr × List Byte)
  | b0 :: b1 :: rest =>
    match decodeWord (wordOfBytes b0 b1) with
    | .ok i => .ok (i, rest)
    | .reject r => .reject r
  | _ => .reject .tooShort

/-- Format A: an operation header and NNN (30_encoding.md R63). -/
def encodeA (op : Nat) (nnn : Addr12) : Word := BitVec.ofNat 16 (op * 0x1000 + nnn.toNat)
/-- Format I: header, X, NN. -/
def encodeI (op : Nat) (x : Reg) (nn : Byte) : Word :=
  BitVec.ofNat 16 (op * 0x1000 + x.val * 0x100 + nn.toNat)
/-- Formats R and D: header, X, Y and the low nibble. -/
def encodeR (op : Nat) (x y : Reg) (n : Nat) : Word :=
  BitVec.ofNat 16 (op * 0x1000 + x.val * 0x100 + y.val * 0x10 + n)
/-- Format U: header, X and the function byte. -/
def encodeU (op : Nat) (x : Reg) (fn : Nat) : Word :=
  BitVec.ofNat 16 (op * 0x1000 + x.val * 0x100 + fn)

/-- The word of an instruction, by the patterns of 30_encoding.md R66. -/
def encode : Instr → Word
  | .cls => 0x00E0
  | .ret => 0x00EE
  | .jp nnn => encodeA 0x1 nnn
  | .call nnn => encodeA 0x2 nnn
  | .seImm x nn => encodeI 0x3 x nn
  | .sneImm x nn => encodeI 0x4 x nn
  | .seReg x y => encodeR 0x5 x y 0x0
  | .ldImm x nn => encodeI 0x6 x nn
  | .addImm x nn => encodeI 0x7 x nn
  | .ldReg x y => encodeR 0x8 x y 0x0
  | .orReg x y => encodeR 0x8 x y 0x1
  | .andReg x y => encodeR 0x8 x y 0x2
  | .xorReg x y => encodeR 0x8 x y 0x3
  | .addReg x y => encodeR 0x8 x y 0x4
  | .subReg x y => encodeR 0x8 x y 0x5
  | .shrReg x y => encodeR 0x8 x y 0x6
  | .subnReg x y => encodeR 0x8 x y 0x7
  | .shlReg x y => encodeR 0x8 x y 0xE
  | .sneReg x y => encodeR 0x9 x y 0x0
  | .ldI nnn => encodeA 0xA nnn
  | .jpV0 nnn => encodeA 0xB nnn
  | .rnd x nn => encodeI 0xC x nn
  | .drw x y n => encodeR 0xD x y n
  | .skp x => encodeU 0xE x 0x9E
  | .sknp x => encodeU 0xE x 0xA1
  | .ldVxDt x => encodeU 0xF x 0x07
  | .ldVxK x => encodeU 0xF x 0x0A
  | .ldDtVx x => encodeU 0xF x 0x15
  | .ldStVx x => encodeU 0xF x 0x18
  | .addI x => encodeU 0xF x 0x1E
  | .ldF x => encodeU 0xF x 0x29
  | .ldB x => encodeU 0xF x 0x33
  | .stRegs x => encodeU 0xF x 0x55
  | .ldRegs x => encodeU 0xF x 0x65

/-- The instruction's bytes as memory holds them. -/
def encodeBytes (i : Instr) : List Byte := bytesOfWord (encode i)

/-- A row of the opcode map: a word is the instruction iff `w & mask = bits` (30_encoding.md R66). -/
structure OpcodeRow where
  bits : Word
  mask : Word
deriving DecidableEq, Repr

/-- The opcode map of 30_encoding.md R66, rows 1 to 9: formats E, A, I and `5XY0`. -/
def opcodeRowsLow : List OpcodeRow :=
  [⟨0x00E0, 0xFFFF⟩, ⟨0x00EE, 0xFFFF⟩, ⟨0x1000, 0xF000⟩, ⟨0x2000, 0xF000⟩, ⟨0x3000, 0xF000⟩,
   ⟨0x4000, 0xF000⟩, ⟨0x5000, 0xF00F⟩, ⟨0x6000, 0xF000⟩, ⟨0x7000, 0xF000⟩]
/-- Rows 10 to 19: the `8XYZ` family and `9XY0`. -/
def opcodeRowsAlu : List OpcodeRow :=
  [⟨0x8000, 0xF00F⟩, ⟨0x8001, 0xF00F⟩, ⟨0x8002, 0xF00F⟩, ⟨0x8003, 0xF00F⟩, ⟨0x8004, 0xF00F⟩,
   ⟨0x8005, 0xF00F⟩, ⟨0x8006, 0xF00F⟩, ⟨0x8007, 0xF00F⟩, ⟨0x800E, 0xF00F⟩, ⟨0x9000, 0xF00F⟩]
/-- Rows 20 to 34: headers 0xA to 0xF. -/
def opcodeRowsHigh : List OpcodeRow :=
  [⟨0xA000, 0xF000⟩, ⟨0xB000, 0xF000⟩, ⟨0xC000, 0xF000⟩, ⟨0xD000, 0xF000⟩, ⟨0xE09E, 0xF0FF⟩,
   ⟨0xE0A1, 0xF0FF⟩, ⟨0xF007, 0xF0FF⟩, ⟨0xF00A, 0xF0FF⟩, ⟨0xF015, 0xF0FF⟩, ⟨0xF018, 0xF0FF⟩,
   ⟨0xF01E, 0xF0FF⟩, ⟨0xF029, 0xF0FF⟩, ⟨0xF033, 0xF0FF⟩, ⟨0xF055, 0xF0FF⟩, ⟨0xF065, 0xF0FF⟩]
/-- All 34 rows, in the table's order. -/
def opcodeRows : List OpcodeRow := opcodeRowsLow ++ opcodeRowsAlu ++ opcodeRowsHigh

/-- The place of an instruction's row in `opcodeRows` (30_encoding.md R66, column #, less one). -/
def Instr.rowNumber : Instr → Fin 34
  | .cls => 0
  | .ret => 1
  | .jp _ => 2
  | .call _ => 3
  | .seImm _ _ => 4
  | .sneImm _ _ => 5
  | .seReg _ _ => 6
  | .ldImm _ _ => 7
  | .addImm _ _ => 8
  | .ldReg _ _ => 9
  | .orReg _ _ => 10
  | .andReg _ _ => 11
  | .xorReg _ _ => 12
  | .addReg _ _ => 13
  | .subReg _ _ => 14
  | .shrReg _ _ => 15
  | .subnReg _ _ => 16
  | .shlReg _ _ => 17
  | .sneReg _ _ => 18
  | .ldI _ => 19
  | .jpV0 _ => 20
  | .rnd _ _ => 21
  | .drw _ _ _ => 22
  | .skp _ => 23
  | .sknp _ => 24
  | .ldVxDt _ => 25
  | .ldVxK _ => 26
  | .ldDtVx _ => 27
  | .ldStVx _ => 28
  | .addI _ => 29
  | .ldF _ => 30
  | .ldB _ => 31
  | .stRegs _ => 32
  | .ldRegs _ => 33

/-- Row number `n` of the opcode map (30_encoding.md R66). -/
def opcodeRow (n : Fin 34) : OpcodeRow := opcodeRows[n.val]'n.isLt

/-- The bytes of a table row's word as memory holds them: the first (and only) word is bits 15..0,
its more significant byte first (20_memory.md R43). Bits above `nbits` are 0. -/
def tableWordBytes (nbits w : Nat) : List Byte := bytesOfWord (BitVec.ofNat 16 (w % 2 ^ nbits))

/-- The instruction the decoder reads from an opcode-table word; none where it rejects. -/
def decodeTableWord (nbits w : Nat) : Option Instr :=
  match decodeBytes (tableWordBytes nbits w) with
  | .ok (i, _) => some i
  | .reject _ => none

end Sys2Proof
end

