-- ==== Sys2Proof/Config.lean ====
section
/-! DEFINITION. What is fixed for a machine: the constants of 00_scope.md R4, the parameters R5
leaves open (their shape; the defaults stand in Machine/Defaults.lean), and the free values. -/

namespace Sys2Proof

namespace Config

/-- Bytes of memory, addresses 0x000 to 0xFFF (00_scope.md R4 `MEM_SIZE`). -/
def memSize : Nat := 0x1000
/-- Bytes of the glyph font, from address 0 (R4 `FONT_SIZE`). -/
def fontSize : Nat := 80
/-- First byte of the program image and reset value of IP (R4 `PROG_BASE`). -/
def progBase : Nat := 0x200
/-- Largest legal image length (R4 `PROG_MAX`). -/
def progMax : Nat := 3584
/-- First byte of the call-stack region and reset value of SP (R4 `STACK_BASE`). -/
def stackBase : Nat := 0x0EA0
/-- One past the last frame: SP with 12 calls pending (R4 `STACK_BYTES`, 10_state.md R15). -/
def stackTop : Nat := 0x0ED0
/-- Bytes per call frame (R4 `FRAME_BYTES`). -/
def frameBytes : Nat := 4
/-- Framebuffer width (R4 `FB_W`). -/
def fbWidth : Nat := 64
/-- Framebuffer height (R4 `FB_H`). -/
def fbHeight : Nat := 32
/-- Completed cycles per advance of DT and ST (R4 `TIMER_DIVIDER`). -/
def timerDivider : Nat := 10

/-- The free value behind the keypad port: sample number `n` when no queued sample is left
(60_exceptions.md R180; log 2). No body: nothing can be proved of its values. -/
opaque freeKeys : Nat → Word
/-- The free value behind the random port: byte number `n` when no queued byte is left
(60_exceptions.md R182; log 3). -/
opaque freeRandom : Nat → Byte
/-- The pacer's configured starting value, which 00_scope.md R5 leaves OPEN (log 7). -/
opaque pacerStart : Nat

end Config

/-- Byte order of a call frame, the parameter `FRAME_ORDER` (00_scope.md R5, 10_state.md R18). -/
inductive FrameOrder where
  | big
  | little
deriving DecidableEq, Repr

/-- Which register the shifts shift, the parameter `SHIFT_SRC` (00_scope.md R5, 42_alu.md R118). -/
inductive ShiftSource where
  | x
  | y
deriving DecidableEq, Repr

/-- The parameters 00_scope.md R5 leaves as arguments of the model and that a running machine
reads (log 4). FONT and MEM_FILL are read by reset only and are arguments of `boot`. -/
structure Params where
  frameOrder : FrameOrder
  shiftSrc   : ShiftSource
  pacerStart : Nat
deriving DecidableEq, Repr

end Sys2Proof
end

