-- ==== Sys2Proof/Machine/Defaults.lean ====
section
/-! DEFINITION. The values this spec's decisions take where its source is silent (00_scope.md R5):
the default parameters, the default font, MEM_FILL and the timers' reset values. -/

namespace Sys2Proof.Machine

/-- FRAME_ORDER = big and SHIFT_SRC = X by default; PACER_START stays open (00_scope.md R5; log 5, 6, 7). -/
def defaultParams : Params :=
  { frameOrder := .big, shiftSrc := .x, pacerStart := Config.pacerStart }

/-- MEM_FILL: what memory outside the font and the image holds at reset (00_scope.md R5; log 9). -/
def memFill : Byte := 0x00

/-- Glyphs 0 to 7 of the standard font (93_implementation_defined.md G1; log 8). -/
def fontLow : List Byte :=
  [0xF0, 0x90, 0x90, 0x90, 0xF0] ++ [0x20, 0x60, 0x20, 0x20, 0x70] ++
  [0xF0, 0x10, 0xF0, 0x80, 0xF0] ++ [0xF0, 0x10, 0xF0, 0x10, 0xF0] ++
  [0x90, 0x90, 0xF0, 0x10, 0x10] ++ [0xF0, 0x80, 0xF0, 0x10, 0xF0] ++
  [0xF0, 0x80, 0xF0, 0x90, 0xF0] ++ [0xF0, 0x10, 0x20, 0x40, 0x40]

/-- Glyphs 8 to F of the standard font (G1; log 8). -/
def fontHigh : List Byte :=
  [0xF0, 0x90, 0xF0, 0x90, 0xF0] ++ [0xF0, 0x90, 0xF0, 0x10, 0xF0] ++
  [0xF0, 0x90, 0xF0, 0x90, 0x90] ++ [0xE0, 0x90, 0xE0, 0x90, 0xE0] ++
  [0xF0, 0x80, 0x80, 0x80, 0xF0] ++ [0xE0, 0x90, 0x90, 0x90, 0xE0] ++
  [0xF0, 0x80, 0xF0, 0x80, 0xF0] ++ [0xF0, 0x80, 0xF0, 0x80, 0x80]

/-- FONT: 16 glyphs of 5 bytes (10_state.md R17; log 8). -/
def defaultFont : List Byte := fontLow ++ fontHigh

/-- DT_INIT (00_scope.md R5; log 10). -/
def dtInit : Byte := 0
/-- ST_INIT (00_scope.md R5; log 10). -/
def stInit : Byte := 0

end Sys2Proof.Machine
end

