-- ==== Sys2Proof/Machine/Memory.lean ====
section
/-! DEFINITION. MEM as plain data: the canonical list of the cells that differ from what an
unlisted address reads as, and the byte and block accesses over it (20_memory.md R40, R41, R47). -/

namespace Sys2Proof.Machine

/-- The cells of MEM that differ from `Memory.background`, addresses strictly rising. -/
abbrev Memory := List Host.Cell

/-- What an unlisted address reads as: the reset contents of 70_reset_and_hazards.md R192 with no
image, the font at 0x000..0x04F and MEM_FILL elsewhere (log 8, log 9). -/
def Memory.background (a : Nat) : Byte :=
  if a < Config.fontSize then defaultFont.getD a memFill else memFill

/-- The byte at address `a` (00_scope.md R7 `MEM[a]`). -/
def Memory.read : Memory → Nat → Byte
  | [], a => Memory.background a
  | (b, y) :: rest, a => if b = a then y else Memory.read rest a

/-- Puts a cell in front, unless an unlisted address already reads as its byte. -/
def Memory.cons (a : Nat) (x : Byte) (rest : Memory) : Memory :=
  if x = Memory.background a then rest else (a, x) :: rest

/-- `MEM[a] <- x`, keeping the canonical form (00_scope.md R7). -/
def Memory.write : Memory → Nat → Byte → Memory
  | [], a, x => Memory.cons a x []
  | (b, y) :: rest, a, x =>
    if a < b then Memory.cons a x ((b, y) :: rest)
    else if a = b then Memory.cons a x rest
    else (b, y) :: Memory.write rest a x

/-- `n` bytes from `a` upward, the byte at `a` first (20_memory.md R41). -/
def Memory.readBlock (m : Memory) (a : Nat) : Nat → List Byte
  | 0 => []
  | n + 1 => Memory.read m a :: Memory.readBlock m (a + 1) n

/-- Writes a list of bytes from `a` upward, in ascending order (20_memory.md R41, R42). -/
def Memory.writeBlock (m : Memory) (a : Nat) : List Byte → Memory
  | [] => m
  | x :: xs => Memory.writeBlock (Memory.write m a x) (a + 1) xs

/-- The canonical form from address `lo` on: addresses strictly rising, inside MEM, no entry equal
to what an unlisted address reads as. -/
def Memory.wfFrom (lo : Nat) : Memory → Bool
  | [] => true
  | (a, x) :: rest =>
    lo ≤ a && a < Config.memSize && x != Memory.background a && Memory.wfFrom (a + 1) rest

/-- The canonical form of a whole memory. -/
def Memory.wf (m : Memory) : Bool := Memory.wfFrom 0 m

/-- Every byte of an access lies in 0x000..0xFFF; an access of no bytes always does (20_memory.md R41). -/
def inMemory (addr n : Nat) : Bool := n = 0 || addr + n ≤ Config.memSize

/-- The lowest out-of-range address of an access that fails `inMemory` (20_memory.md R41). -/
def lowestOutside (addr : Nat) : Nat := max addr Config.memSize

end Sys2Proof.Machine
end

