-- ==== Sys2Proof/Machine/State.lean ====
section
/-! DEFINITION. The whole state of the machine (10_state.md R10), as plain data, the machine's own
faults as data in it, and the state after reset (70_reset_and_hazards.md R191). -/

namespace Sys2Proof.Machine

/-- The six fatal faults of 60_exceptions.md R160. Taking one is a next state with HALT = 1. -/
inductive FaultKind where
  | unimplementedInstruction
  | stackOverflow
  | stackUnderflow
  | invalidLoad
  | addressFault
  | keyIndexFault
deriving DecidableEq, Repr

/-- FAULT: the record of a fault, its kind and its 32-bit information word (10_state.md R26, 60_exceptions.md R167). -/
structure FaultRecord where
  kind : FaultKind
  info : BitVec 32
deriving DecidableEq, Repr

/-- The framebuffer's 32 rows, top row first; bit `x` of a row is the cell in column `x` (10_state.md R23; log 30). -/
abbrev Framebuffer := Vector (BitVec 64) 32

/-- The state: the elements of 10_state.md R10 by their names, then the model's own fields. -/
structure State where
  /-- MEM (R16). -/
  mem : Memory
  /-- V0 to VF (R11). -/
  v : Vector Byte 16
  /-- I, the address register (R13). -/
  i : Word
  /-- IP, the instruction pointer (R14; log 23). -/
  ip : Word
  /-- SP, the address of the next free frame (R15; log 24). -/
  sp : Nat
  /-- DT, the delay timer (R19). -/
  dt : Byte
  /-- ST, the sound timer (R20). -/
  st : Byte
  /-- PACER (R21). -/
  pacer : Nat
  /-- DIV, the rate divider (R22). -/
  div : Nat
  /-- FB (R23). -/
  fb : Framebuffer
  /-- K, the keypad latch: bit `k` is line `k` (R24). -/
  k : Word
  /-- WAIT: inside an `FX0A` that has not yet seen a key (R25). -/
  wait : Bool
  /-- WX: the X field of that `FX0A` (R25). -/
  wx : Reg
  /-- HALT: a fault was taken (R26). -/
  halt : Bool
  /-- FAULT: its record (R26). -/
  fault : Option FaultRecord
  /-- The model's: the parameters of 00_scope.md R5 a running machine reads; no step writes them (log 4). -/
  params : Params
  /-- The model's: the samples the port `key[15:0]` will give next (R28; log 2). -/
  keyQueue : List Word
  /-- The model's: how many keypad samples were taken (log 2). -/
  keyDraws : Nat
  /-- The model's: the bytes the port `rnd[7:0]` will give next (R28; log 3). -/
  rndQueue : List Byte
  /-- The model's: how many random bytes were drawn (log 3). -/
  rndDraws : Nat
deriving DecidableEq, Repr

/-- Reasons for which the model itself stops. There are none: every behaviour of this machine, the
six fatal faults included, is described by the spec and is a next state (60_exceptions.md R167,
40_cycle.md R81; log 1). Safe: nothing is left out by it. -/
inductive Fault : Type
deriving DecidableEq, Repr

/-- Instructions without a meaning in the model. -/
inductive Refusal where
  /-- Raised only by an arm of `exec` that has no meaning yet; there is no such arm. Safe. -/
  | notModelled (mnemonic : String)
deriving DecidableEq, Repr

/-- The state after reset with no program image (70_reset_and_hazards.md R191, R192 with len = 0):
a program is loaded from outside by `boot` (log 26). -/
def State.reset : State where
  mem := []
  v := Vector.replicate 16 0
  i := 0
  ip := BitVec.ofNat 16 Config.progBase
  sp := Config.stackBase
  dt := dtInit
  st := stInit
  pacer := defaultParams.pacerStart
  div := 0
  fb := Vector.replicate 32 0
  k := 0
  wait := false
  wx := 0
  halt := false
  fault := none
  params := defaultParams
  keyQueue := []
  keyDraws := 0
  rndQueue := []
  rndDraws := 0

end Sys2Proof.Machine
end

