-- ==== Sys2Proof/Machine/Boot.lean ====
section
/-! DEFINITION. Reset with a program image: the construction of a machine (70_reset_and_hazards.md
R190 to R193; log 26, log 27, log 28). -/

namespace Sys2Proof.Machine

/-- The canonical cells of a run of bytes laid from address `a` up. -/
def Memory.ofBytes (a : Nat) : List Byte → Memory
  | [] => []
  | x :: xs => Memory.cons a x (Memory.ofBytes (a + 1) xs)

/-- MEM after reset, byte by byte from address 0: the font, the fill up to 0x200, the image, the fill
up to 0xFFF (70_reset_and_hazards.md R192). -/
def resetBytes (font : Vector Byte 80) (fill : Byte) (image : List Byte) : List Byte :=
  font.toList ++ List.replicate (Config.progBase - Config.fontSize) fill ++ image ++
    List.replicate (Config.progMax - image.length) fill

/-- `len`, saturated at 2^32 − 1: the information word of InvalidLoad (60_exceptions.md R160, R164). -/
def loadLength (image : List Byte) : BitVec 32 := BitVec.ofNat 32 (min image.length 0xFFFFFFFF)

/-- An image is valid when it fits above 0x200 (70_reset_and_hazards.md R193). -/
def imageFits (image : List Byte) : Bool := image.length ≤ Config.progMax

/-- The machine reset with parameters, FONT, MEM_FILL and a program image; with an oversized image it
is halted with InvalidLoad and no byte of the image is copied (70_reset_and_hazards.md R191 to R193). -/
def boot (params : Params) (font : Vector Byte 80) (fill : Byte) (image : List Byte) : State :=
  let s := { State.reset with params := params, pacer := params.pacerStart }
  if imageFits image then { s with mem := Memory.ofBytes 0 (resetBytes font fill image) }
  else
    { s with
      mem := Memory.ofBytes 0 (resetBytes font fill [])
      halt := true
      fault := some ⟨.invalidLoad, loadLength image⟩ }

/-- FONT's default as the 80 bytes of `boot`'s argument (log 8). -/
def fontVector : Vector Byte 80 := ⟨defaultFont.toArray, by decide⟩

end Sys2Proof.Machine
end

