-- ==== Sys2Proof/Machine/Ops.lean ====
section
/-! DEFINITION. The named operations every instruction is written with: registers, pointers,
memory, raising a fault, the call stack (00_scope.md R7). -/

namespace Sys2Proof.Machine

/-- What `exec` and `step` answer. -/
abbrev Result := Host.Outcome State Fault Refusal

/-- `V[r]` (10_state.md R11). -/
def State.reg (s : State) (r : Reg) : Byte := s.v[r.val]

/-- `V[r] <- b` (10_state.md R11); no register is hardwired. -/
def State.setReg (s : State) (r : Reg) (b : Byte) : State := { s with v := s.v.set r.val b }

/-- `I <- a` (10_state.md R13). -/
def State.setI (s : State) (a : Word) : State := { s with i := a }

/-- `IP <- target` (41_control_flow.md R99: no check of the target). -/
def State.jump (s : State) (target : Word) : State := { s with ip := target }

/-- `Skip()`: IP advances by an extra 2 (40_cycle.md R87). -/
def State.skip (s : State) : State := s.jump (s.ip + 2)

/-- `if c then Skip()` (41_control_flow.md R94 to R97). -/
def State.skipIf (s : State) (c : Bool) : State := if c then s.skip else s

/-! ### Faults -/

/-- Taking a fault, the one operation every fault goes through: FAULT gets the record, HALT is set,
and nothing else changes (60_exceptions.md R167; log 1, log 25). -/
def State.raise (s : State) (f : FaultRecord) : State := { s with halt := true, fault := some f }

/-- The end of an instruction that may fault: its result, or the fault taken in the state it began
in, none of its own writes done (60_exceptions.md R167, R168). -/
def State.settle (s : State) : Except FaultRecord State → State
  | .ok t => t
  | .error f => s.raise f

/-- A fault whose information word is the instruction word (60_exceptions.md R160 to R163). -/
def wordFault (kind : FaultKind) (w : Word) : FaultRecord := ⟨kind, w.setWidth 32⟩

/-- `AddressFault(a)` (60_exceptions.md R165). -/
def addressFault (a : Nat) : FaultRecord := ⟨.addressFault, BitVec.ofNat 32 a⟩

/-- `KeyIndexFault(k)` (60_exceptions.md R166). -/
def keyIndexFault (k : Byte) : FaultRecord := ⟨.keyIndexFault, k.setWidth 32⟩

/-! ### Memory -/

/-- `MemRead(addr, n)` (20_memory.md R41; log 14). -/
def State.memRead (s : State) (addr n : Nat) : Except FaultRecord (List Byte) :=
  if inMemory addr n then .ok (Memory.readBlock s.mem addr n)
  else .error (addressFault (lowestOutside addr))

/-- `MemWrite(addr, n, bytes)`: the whole access is checked before any byte is written
(20_memory.md R41; log 14). -/
def State.memWrite (s : State) (addr : Nat) (bytes : List Byte) : Except FaultRecord State :=
  if inMemory addr bytes.length then .ok { s with mem := Memory.writeBlock s.mem addr bytes }
  else .error (addressFault (lowestOutside addr))

/-! ### The call stack -/

/-- A call frame: `zext_32(v)` in the byte order FRAME_ORDER (10_state.md R18; log 5). -/
def frameOf (order : FrameOrder) (v : Word) : List Byte :=
  let hi := BitVec.ofNat 8 (v.toNat / 256)
  let lo := BitVec.ofNat 8 (v.toNat % 256)
  match order with
  | .big => [0, 0, hi, lo]
  | .little => [lo, hi, 0, 0]

/-- The unsigned value of bytes, the first the most significant. -/
def bigEndianValue (bytes : List Byte) : Nat := bytes.foldl (fun acc b => 256 * acc + b.toNat) 0

/-- The 32-bit value a frame holds (41_control_flow.md R98 `v32`). -/
def frameValue (order : FrameOrder) (bytes : List Byte) : Nat :=
  match order with
  | .big => bigEndianValue bytes
  | .little => bigEndianValue bytes.reverse

/-- `Push(v)` for the instruction word `w`: overflow is checked before the frame is written, the
frame is written at SP, then SP moves up (41_control_flow.md R98; log 24). -/
def State.push (s : State) (v w : Word) : Except FaultRecord State :=
  if s.sp = Config.stackTop then .error (wordFault .stackOverflow w)
  else
    match s.memWrite s.sp (frameOf s.params.frameOrder v) with
    | .error f => .error f
    | .ok t => .ok { t with sp := s.sp + Config.frameBytes }

/-- `Pop()` for the instruction word `w`: the value and the state with SP moved down; a frame whose
upper half is not zero is an AddressFault (41_control_flow.md R98; log 15, log 24). -/
def State.pop (s : State) (w : Word) : Except FaultRecord (Word × State) :=
  if s.sp = Config.stackBase then .error (wordFault .stackUnderflow w)
  else
    match s.memRead (s.sp - Config.frameBytes) Config.frameBytes with
    | .error f => .error f
    | .ok bytes =>
      let v32 := frameValue s.params.frameOrder bytes
      if v32 < 0x10000 then
        .ok (BitVec.ofNat 16 v32, { s with sp := s.sp - Config.frameBytes })
      else .error (addressFault v32)

end Sys2Proof.Machine
end

