-- ==== Sys2Proof/Machine/Operands.lean ====
section
/-! DEFINITION. The operand forms: zero extension, the shifts' source, the memory operand at I,
register blocks, decimal digits, glyph addresses, key numbers (30_encoding.md R64, 43_index_memory.md). -/

namespace Sys2Proof.Machine

/-- `zext_16(NNN)` (30_encoding.md R64). -/
def zextAddr (nnn : Addr12) : Word := nnn.setWidth 16

/-- `zext_16(V[x])` (43_index_memory.md R131). -/
def State.regZext (s : State) (x : Reg) : Word := (s.reg x).setWidth 16

/-- The value a shift shifts: VX, or VY when SHIFT_SRC = Y (42_alu.md R118, R120; log 6). -/
def State.shiftOperand (s : State) (x y : Reg) : Byte :=
  match s.params.shiftSrc with
  | .x => s.reg x
  | .y => s.reg y

/-- The address of the memory operand: I as a natural number, never reduced (20_memory.md R56). -/
def State.operandAddr (s : State) : Nat := s.i.toNat

/-- `V[0], V[1], ..., V[x]`, the registers a block move moves (43_index_memory.md R134). -/
def State.regBlock (s : State) (x : Reg) : List Byte := s.v.toList.take (x.val + 1)

/-- Writes bytes to the registers from number `r` on, `V[k] <- bk` (43_index_memory.md R135). -/
def State.setRegsFrom (s : State) (r : Nat) : List Byte → State
  | [] => s
  | b :: bs => (if h : r < 16 then s.setReg ⟨r, h⟩ b else s).setRegsFrom (r + 1) bs

/-- The three decimal digits of a byte, most significant first (43_index_memory.md R133). -/
def decimalDigits (b : Byte) : List Byte :=
  [BitVec.ofNat 8 (b.toNat / 100), BitVec.ofNat 8 (b.toNat / 10 % 10), BitVec.ofNat 8 (b.toNat % 10)]

/-- The address of glyph `d`: the font is at 0 and a glyph has 5 bytes; the whole byte is used
(43_index_memory.md R132). -/
def glyphAddr (d : Byte) : Word := BitVec.ofNat 16 (5 * d.toNat)

/-- The keypad line VX names: a number above 15 names none (45_keypad_timers.md R150; log 16). -/
def keyLine (b : Byte) : Except FaultRecord Reg :=
  if h : b.toNat < 16 then .ok ⟨b.toNat, h⟩ else .error (keyIndexFault b)

end Sys2Proof.Machine
end

