-- ==== Sys2Proof/Machine/Flags.lean ====
section
/-! DEFINITION. The flag computations: each operation gives its 8-bit result and the flag VF
receives (42_alu.md R122, R123; 10_state.md R12). -/

namespace Sys2Proof.Machine

/-- A condition as the byte VF holds, 1 or 0 (10_state.md R12). -/
def flagByte (c : Bool) : Byte := if c then 1 else 0

/-- Addition: the sum modulo 256, and the carry `a + b > 255` (42_alu.md R116, R123). -/
def addWithCarry (a b : Byte) : Byte × Byte := (a + b, flagByte (255 < a.toNat + b.toNat))

/-- Subtraction `a - b` modulo 256, and not-borrow `a >= b` (42_alu.md R117, R119, R123). -/
def subNotBorrow (a b : Byte) : Byte × Byte := (a - b, flagByte (b.toNat ≤ a.toNat))

/-- Logical right shift by one, and bit 0 of the source (42_alu.md R118). -/
def shiftRight (b : Byte) : Byte × Byte := (b >>> 1, flagByte (b.getLsbD 0))

/-- Logical left shift by one, and bit 7 of the source (42_alu.md R120). -/
def shiftLeft (b : Byte) : Byte × Byte := (b <<< 1, flagByte (b.getLsbD 7))

/-- The write-back of a flag-setting operation: the result to V[x], then the flag to VF, last
(42_alu.md R122; log 19). -/
def State.setFlagged (s : State) (x : Reg) (rf : Byte × Byte) : State :=
  (s.setReg x rf.1).setReg vf rf.2

end Sys2Proof.Machine
end

