-- ==== Sys2Proof/Machine/Inputs.lean ====
section
/-! DEFINITION. The core's two inputs, the keypad lines and the random byte, and what the core
does with a keypad sample (60_exceptions.md R180, R182; 45_keypad_timers.md R156; log 2, log 3). -/

namespace Sys2Proof.Machine

/-- `KeySample()`: the next queued sample, or a free value (60_exceptions.md R180; log 2). -/
def State.keySample (s : State) : Word :=
  match s.keyQueue with
  | lines :: _ => lines
  | [] => Config.freeKeys s.keyDraws

/-- `K <- KeySample()`, one sample taken (40_cycle.md R83). -/
def State.refreshKeys (s : State) : State :=
  { s with k := s.keySample, keyQueue := s.keyQueue.tail, keyDraws := s.keyDraws + 1 }

/-- `Rnd()`: the next queued byte, or a free value (60_exceptions.md R182; log 3). -/
def State.randomByte (s : State) : Byte :=
  match s.rndQueue with
  | b :: _ => b
  | [] => Config.freeRandom s.rndDraws

/-- One random byte is drawn: the next draw sees the one after it. -/
def State.dropRandom (s : State) : State :=
  { s with rndQueue := s.rndQueue.tail, rndDraws := s.rndDraws + 1 }

/-- `K[k]` (10_state.md R24). -/
def State.keyDown (s : State) (k : Reg) : Bool := s.k.getLsbD k.val

/-- The lowest-numbered line that is down among `n` lines from `k` on. -/
def firstDownFrom (lines : Word) (k : Nat) : Nat → Nat
  | 0 => k
  | n + 1 => if lines.getLsbD k then k else firstDownFrom lines (k + 1) n

/-- `FirstDown(K)`, for a latch with at least one line down (45_keypad_timers.md R156; log 22). -/
def firstDown (lines : Word) : Byte := BitVec.ofNat 8 (firstDownFrom lines 0 15)

/-- The key wait's test of the latch: with a line down, V[x] receives its number; else the machine
is inside the wait (45_keypad_timers.md R152; log 22). -/
def State.awaitKey (s : State) (x : Reg) : State :=
  if s.k = 0 then { s with wait := true, wx := x } else s.setReg x (firstDown s.k)

end Sys2Proof.Machine
end

