-- ==== Sys2Proof/Machine/Alu.lean ====
section
/-! DEFINITION. Register loads, the 8-bit ALU and the random byte (42_alu.md). -/

namespace Sys2Proof.Machine

/-- `6XNN`: V[X] <- NN (42_alu.md R110). -/
def execLdImm (x : Reg) (nn : Byte) (s : State) : Result := .next (s.setReg x nn)

/-- `7XNN`: V[X] <- (V[X] + NN) mod 256, no flag (42_alu.md R111). -/
def execAddImm (x : Reg) (nn : Byte) (s : State) : Result := .next (s.setReg x (s.reg x + nn))

/-- `8XY0`: V[X] <- V[Y] (42_alu.md R112). -/
def execLdReg (x y : Reg) (s : State) : Result := .next (s.setReg x (s.reg y))

/-- `8XY1`: V[X] <- V[X] | V[Y], VF not written (42_alu.md R113; log 20). -/
def execOrReg (x y : Reg) (s : State) : Result := .next (s.setReg x (s.reg x ||| s.reg y))

/-- `8XY2`: V[X] <- V[X] & V[Y], VF not written (42_alu.md R114; log 20). -/
def execAndReg (x y : Reg) (s : State) : Result := .next (s.setReg x (s.reg x &&& s.reg y))

/-- `8XY3`: V[X] <- V[X] ^ V[Y], VF not written (42_alu.md R115; log 20). -/
def execXorReg (x y : Reg) (s : State) : Result := .next (s.setReg x (s.reg x ^^^ s.reg y))

/-- `8XY4`: addition, VF <- carry (42_alu.md R116, R122). -/
def execAddReg (x y : Reg) (s : State) : Result :=
  .next (s.setFlagged x (addWithCarry (s.reg x) (s.reg y)))

/-- `8XY5`: VX - VY, VF <- not-borrow (42_alu.md R117, R122). -/
def execSubReg (x y : Reg) (s : State) : Result :=
  .next (s.setFlagged x (subNotBorrow (s.reg x) (s.reg y)))

/-- `8XY6`: logical right shift by one, VF <- the bit shifted out (42_alu.md R118, R122). -/
def execShrReg (x y : Reg) (s : State) : Result :=
  .next (s.setFlagged x (shiftRight (s.shiftOperand x y)))

/-- `8XY7`: VY - VX, VF <- not-borrow (42_alu.md R119, R122). -/
def execSubnReg (x y : Reg) (s : State) : Result :=
  .next (s.setFlagged x (subNotBorrow (s.reg y) (s.reg x)))

/-- `8XYE`: logical left shift by one, VF <- the bit shifted out (42_alu.md R120, R122). -/
def execShlReg (x y : Reg) (s : State) : Result :=
  .next (s.setFlagged x (shiftLeft (s.shiftOperand x y)))

/-- `CXNN`: V[X] <- Rnd() & NN, exactly one byte drawn (42_alu.md R121). -/
def execRnd (x : Reg) (nn : Byte) (s : State) : Result :=
  .next (s.dropRandom.setReg x (s.randomByte &&& nn))

end Sys2Proof.Machine
end

