-- ==== Sys2Proof/Machine/ControlFlow.lean ====
section
/-! DEFINITION. Control transfer, the call stack and the register skips (41_control_flow.md). In
step 3 IP is already the address of the following word (40_cycle.md R86). -/

namespace Sys2Proof.Machine

/-- `1NNN`: IP <- NNN (41_control_flow.md R90). -/
def execJp (nnn : Addr12) (s : State) : Result := .next (s.jump (zextAddr nnn))

/-- `2NNN`: Push(IP), then IP <- NNN (41_control_flow.md R91). The word the overflow fault reports
is the instruction's own (log 34). -/
def execCall (nnn : Addr12) (s : State) : Result :=
  .next (s.settle ((s.push s.ip (encode (.call nnn))).map (fun t => t.jump (zextAddr nnn))))

/-- `00EE`: IP <- Pop() (41_control_flow.md R92; log 34). -/
def execRet (s : State) : Result :=
  .next (s.settle ((s.pop (encode .ret)).map (fun p => p.2.jump p.1)))

/-- `BNNN`: IP <- V0 + NNN (41_control_flow.md R93). -/
def execJpV0 (nnn : Addr12) (s : State) : Result := .next (s.jump (s.regZext 0 + zextAddr nnn))

/-- `3XNN`: skip if V[X] = NN (41_control_flow.md R94). -/
def execSeImm (x : Reg) (nn : Byte) (s : State) : Result := .next (s.skipIf (s.reg x == nn))

/-- `4XNN`: skip if V[X] ≠ NN (41_control_flow.md R95). -/
def execSneImm (x : Reg) (nn : Byte) (s : State) : Result := .next (s.skipIf (s.reg x != nn))

/-- `5XY0`: skip if V[X] = V[Y] (41_control_flow.md R96). -/
def execSeReg (x y : Reg) (s : State) : Result := .next (s.skipIf (s.reg x == s.reg y))

/-- `9XY0`: skip if V[X] ≠ V[Y] (41_control_flow.md R97). -/
def execSneReg (x y : Reg) (s : State) : Result := .next (s.skipIf (s.reg x != s.reg y))

end Sys2Proof.Machine
end

