-- ==== Sys2Proof/Machine/Framebuffer.lean ====
section
/-! DEFINITION. The framebuffer primitives and the sprite blit (44_display.md R141 to R143). -/

namespace Sys2Proof.Machine

/-- `FB[x mod 64][y mod 32]` (44_display.md R142: coordinates are always wrapped). -/
def Framebuffer.cell (fb : Framebuffer) (x y : Nat) : Bool :=
  (fb[y % 32]'(Nat.mod_lt y (by decide))).getLsbD (x % 64)

/-- A row with only the bit of column `x` set to `b`. -/
def pixelMask (x : Nat) (b : Bool) : BitVec 64 := (BitVec.ofBool b).setWidth 64 <<< (x % 64)

/-- The write of `SetPixel(x, y, b)`: XOR `b` into the wrapped cell (44_display.md R142). The value
`SetPixel` returns is the cell before it, `Framebuffer.cell`. -/
def Framebuffer.xorPixel (fb : Framebuffer) (x y : Nat) (b : Bool) : Framebuffer :=
  fb.set (y % 32) (fb[y % 32]'(Nat.mod_lt y (by decide)) ^^^ pixelMask x b) (Nat.mod_lt y (by decide))

/-- `Clear()`: every cell 0 (44_display.md R143). -/
def Framebuffer.clear : Framebuffer := Vector.replicate 32 0

/-- The sprite bit of column `c` of a row byte: bit 7 is the leftmost pixel (44_display.md R141). -/
def spriteBit (row : Byte) (c : Nat) : Bool := row.getLsbD (7 - c)

/-- One pixel of a draw: SetPixel, then VF receives the old cell value (44_display.md R141; log 21). -/
def State.drawPixel (s : State) (x y : Nat) (b : Bool) : State :=
  { s with fb := Framebuffer.xorPixel s.fb x y b }.setReg vf (flagByte (Framebuffer.cell s.fb x y))

/-- Columns `c`, `c + 1`, ... of one sprite row, leftmost first, `count` of them. -/
def State.drawColumns (s : State) (x0 y : Nat) (row : Byte) (c : Nat) : Nat → State
  | 0 => s
  | count + 1 =>
    (s.drawPixel (x0 + c) y (spriteBit row c)).drawColumns x0 y row (c + 1) count

/-- The rows of a sprite, top first, eight pixels each (44_display.md R141). -/
def State.drawRows (s : State) (x0 y : Nat) : List Byte → State
  | [] => s
  | row :: rows => (s.drawColumns x0 y row 0 8).drawRows x0 (y + 1) rows

end Sys2Proof.Machine
end

