-- ==== Sys2Proof/Machine/Display.lean ====
section
/-! DEFINITION. The framebuffer instructions (44_display.md). -/

namespace Sys2Proof.Machine

/-- `00E0`: Clear() (44_display.md R140). -/
def execCls (s : State) : Result := .next { s with fb := Framebuffer.clear }

/-- `DXYN`: XOR the N sprite rows at I into the framebuffer at (VX, VY); position and rows are read
before the first pixel (44_display.md R141; log 21). -/
def execDrw (x y : Reg) (n : Nat) (s : State) : Result :=
  .next (s.settle ((s.memRead s.operandAddr n).map
    (s.drawRows (s.reg x).toNat (s.reg y).toNat)))

end Sys2Proof.Machine
end

