-- ==== Sys2Proof/Machine/IndexMemory.lean ====
section
/-! DEFINITION. The address register and memory instructions (43_index_memory.md). None of them
modifies I beyond its own rule (R136; log 20). -/

namespace Sys2Proof.Machine

/-- `ANNN`: I <- NNN (43_index_memory.md R130). -/
def execLdI (nnn : Addr12) (s : State) : Result := .next (s.setI (zextAddr nnn))

/-- `FX1E`: I <- (I + VX) mod 65536, VF not written (43_index_memory.md R131; log 20). -/
def execAddI (x : Reg) (s : State) : Result := .next (s.setI (s.i + s.regZext x))

/-- `FX29`: I <- 5 × VX (43_index_memory.md R132). -/
def execLdF (x : Reg) (s : State) : Result := .next (s.setI (glyphAddr (s.reg x)))

/-- `FX33`: the three decimal digits of VX to MEM[I], MEM[I+1], MEM[I+2] (43_index_memory.md R133). -/
def execLdB (x : Reg) (s : State) : Result :=
  .next (s.settle (s.memWrite s.operandAddr (decimalDigits (s.reg x))))

/-- `FX55`: MEM[I + k] <- V[k] for k = 0..X (43_index_memory.md R134). -/
def execStRegs (x : Reg) (s : State) : Result :=
  .next (s.settle (s.memWrite s.operandAddr (s.regBlock x)))

/-- `FX65`: V[k] <- MEM[I + k] for k = 0..X, all bytes read first (43_index_memory.md R135). -/
def execLdRegs (x : Reg) (s : State) : Result :=
  .next (s.settle ((s.memRead s.operandAddr (x.val + 1)).map (s.setRegsFrom 0)))

end Sys2Proof.Machine
end

