-- ==== Sys2Proof/Machine/KeypadTimers.lean ====
section
/-! DEFINITION. The keypad and timer instructions (45_keypad_timers.md). In step 3 the latch K
already holds this cycle's sample (40_cycle.md R83). -/

namespace Sys2Proof.Machine

/-- `EX9E`: skip if the line VX names is down (45_keypad_timers.md R150; log 16). -/
def execSkp (x : Reg) (s : State) : Result :=
  .next (s.settle ((keyLine (s.reg x)).map (fun k => s.skipIf (s.keyDown k))))

/-- `EXA1`: skip if the line VX names is not down (45_keypad_timers.md R151; log 16). -/
def execSknp (x : Reg) (s : State) : Result :=
  .next (s.settle ((keyLine (s.reg x)).map (fun k => s.skipIf (!s.keyDown k))))

/-- `FX0A`, step 3 of the cycle that fetched it: completes with the lowest line down, or enters the
wait (45_keypad_timers.md R152; log 22). The later polls are `State.pollKeys`. -/
def execLdVxK (x : Reg) (s : State) : Result := .next (s.awaitKey x)

/-- `FX07`: V[X] <- DT (45_keypad_timers.md R153). -/
def execLdVxDt (x : Reg) (s : State) : Result := .next (s.setReg x s.dt)

/-- `FX15`: DT <- V[X]; DIV is not reset (45_keypad_timers.md R154). -/
def execLdDtVx (x : Reg) (s : State) : Result := .next { s with dt := s.reg x }

/-- `FX18`: ST <- V[X] (45_keypad_timers.md R155). -/
def execLdStVx (x : Reg) (s : State) : Result := .next { s with st := s.reg x }

end Sys2Proof.Machine
end

