-- ==== Sys2Proof/Machine/Timers.lean ====
section
/-! DEFINITION. The timer primitive and step 4 of the cycle (60_exceptions.md R174 to R177). -/

namespace Sys2Proof.Machine

/-- `Advance(c, start, auto)` (60_exceptions.md R174). -/
def advance (c start : Nat) (auto : Bool) : Nat :=
  if 0 < c then c - 1 else if auto then start else 0

/-- One advance of DT or ST: no auto-reset, clamped at zero (60_exceptions.md R175). -/
def advanceByte (c start : Byte) : Byte := BitVec.ofNat 8 (advance c.toNat start.toNat false)

/-- `TimerStep()`: PACER every cycle, DT and ST every tenth (60_exceptions.md R177; log 13). -/
def State.timerStep (s : State) : State :=
  let s := { s with pacer := advance s.pacer s.params.pacerStart true, div := s.div + 1 }
  if s.div = Config.timerDivider then
    { s with div := 0, dt := advanceByte s.dt dtInit, st := advanceByte s.st stInit }
  else s

end Sys2Proof.Machine
end

