-- ==== Sys2Proof/Machine/Cycle.lean ====
section
/-! DEFINITION. The fetch-decode-execute cycle and what a cycle request does under HALT and WAIT
(40_cycle.md R80 to R88). -/

namespace Sys2Proof.Machine

/-- The word a list of two bytes makes (20_memory.md R43). -/
def wordOfBlock : List Byte → Word
  | [b0, b1] => wordOfBytes b0 b1
  | _ => 0

/-- Step 1, fetch: two bytes at IP, then IP advances by 2; out of range, IP stays (40_cycle.md R82). -/
def State.fetch (s : State) : Except FaultRecord (Word × State) :=
  (s.memRead s.ip.toNat 2).map (fun bytes => (wordOfBlock bytes, s.jump (s.ip + 2)))

/-- Step 3, decode and execute: a word that selects no instruction is the fault
UnimplementedInstruction(w) (40_cycle.md R84; 30_encoding.md R68). -/
def execWord (w : Word) (s : State) : Result :=
  match decodeWord w with
  | .ok i => exec i s
  | .reject _ => .next (s.raise (wordFault .unimplementedInstruction w))

/-- Step 4, performed when step 3 neither faulted nor entered the wait (40_cycle.md R81, R85). -/
def State.endCycle (s : State) : State := if s.halt || s.wait then s else s.timerStep

/-- The four steps of a normal cycle, in order (40_cycle.md R80). -/
def runCycle (s : State) : Result :=
  match s.fetch with
  | .error f => .next (s.raise f)
  | .ok (w, t) =>
    match execWord w t.refreshKeys with
    | .next u => .next u.endCycle
    | .fault r => .fault r
    | .refused r => .refused r

/-- One poll of the keypad inside the wait: with a line down, V[WX] receives its number, the wait
ends and step 4 of the `FX0A`'s cycle runs (40_cycle.md R81; 45_keypad_timers.md R152; log 22). -/
def State.pollKeys (s : State) : State :=
  let t := s.refreshKeys
  if t.k = 0 then t
  else { t.setReg t.wx (firstDown t.k) with wait := false }.timerStep

/-- A cycle request: nothing when halted, a poll when waiting, else a cycle (40_cycle.md R81). -/
def cycleRequest (s : State) : Result :=
  if s.halt then .next s
  else if s.wait then .next s.pollKeys
  else runCycle s

/-- `s` made ready to fetch: neither halted nor waiting, which a fetch needs (40_cycle.md R81; log 35). -/
def State.readyToFetch (s : State) : State := { s with halt := false, fault := none, wait := false }

/-- `s` with bytes stored where the next fetch reads them (log 35). -/
def State.placeAtIp (s : State) (bytes : List Byte) : State :=
  match s.memWrite s.ip.toNat bytes with
  | .ok t => t
  | .error _ => s

end Sys2Proof.Machine
end

