-- ==== Sys2Proof/Machine/Ports.lean ====
section
/-! DEFINITION. The output ports as functions of the state (10_state.md R28). The inputs are in
Machine/Inputs.lean (`key`, `rnd`), Machine/Boot.lean (`reset`) and Machine/Step.lean (`cycle_req`). -/

namespace Sys2Proof.Machine

/-- The 3-bit cause code of a fault (60_exceptions.md R160; log 25). -/
def FaultKind.code : FaultKind → BitVec 3
  | .unimplementedInstruction => 1
  | .stackOverflow => 2
  | .stackUnderflow => 3
  | .invalidLoad => 4
  | .addressFault => 5
  | .keyIndexFault => 6

/-- `waiting_key` (10_state.md R28; 60_exceptions.md R183). -/
def State.waitingKey (s : State) : Bool := s.wait

/-- `halted` (10_state.md R28). -/
def State.halted (s : State) : Bool := s.halt

/-- `fault_code`; none while there is no record (10_state.md R28; log 25). -/
def State.faultCode (s : State) : Option (BitVec 3) := s.fault.map (fun f => f.kind.code)

/-- `fault_info`; none while there is no record (10_state.md R28; log 25). -/
def State.faultInfo (s : State) : Option (BitVec 32) := s.fault.map (fun f => f.info)

/-- `fb`: the 2048 cells in row-major order, cell (x, y) at 64 × y + x (10_state.md R23, R28;
60_exceptions.md R181; log 30). -/
def State.fbPort (s : State) : List Bool :=
  s.fb.toList.flatMap (fun row => (List.range Config.fbWidth).map row.getLsbD)

end Sys2Proof.Machine
end

