-- ==== Sys2Proof/Machine/Step.lean ====
section
/-! DEFINITION. The machine's one step, a cycle request (40_cycle.md R80, R81), and the state with
an instruction placed where the next step fetches it. -/

namespace Sys2Proof.Machine

/-- One step is one `cycle_req` (10_state.md R28; 40_cycle.md R81). -/
def step (s : State) : Host.Outcome State Fault Refusal := cycleRequest s

/-- `s` with an opcode-table word stored at IP and, where `s` was halted or waiting, made ready to
fetch it (log 35). -/
def State.withFetchWord (s : State) (nbits w : Nat) : State :=
  s.readyToFetch.placeAtIp (tableWordBytes nbits w)

end Sys2Proof.Machine
end

