-- ==== Sys2Proof/Machine/Assembly.lean ====
section
/-! DEFINITION. The assembler syntax of 30_encoding.md R72 as data: a line is a mnemonic with its
operands, or raw data. Its assembly into words, the line of an instruction, and how a line is
written out. The mnemonics are names only (log 36). -/

namespace Sys2Proof.Machine

/-- The mnemonics of 30_encoding.md R66. -/
inductive Mnemonic where
  | cls | ret | jp | call | se | sne | ld | add | or | and | xor | sub | shr | subn | shl | rnd | drw
  | skp | sknp
deriving DecidableEq, Repr

/-- An operand (30_encoding.md R72): a general register, a named one, memory at I, or a number. -/
inductive AsmOperand where
  | v (r : Reg)
  | i
  | dt
  | st
  | k
  | f
  | b
  | atI
  | num (n : Nat)
deriving DecidableEq, Repr

/-- One line of assembly (30_encoding.md R72). -/
inductive AsmLine where
  | op (m : Mnemonic) (operands : List AsmOperand)
  | dw (n : Nat)
  | db (bytes : List Nat)
deriving DecidableEq, Repr

/-- A number in the place of NN: 0 to 255 (30_encoding.md R64). -/
def asmByte (n : Nat) (f : Byte → Instr) : Option Instr :=
  if n < 256 then some (f (BitVec.ofNat 8 n)) else none

/-- A number in the place of NNN: 0 to 0xFFF. -/
def asmAddr (n : Nat) (f : Addr12 → Instr) : Option Instr :=
  if n < 4096 then some (f (BitVec.ofNat 12 n)) else none

/-- The forms of `LD` (30_encoding.md R66, rows 8, 10, 20, 26 to 29, 31 to 34). -/
def assembleLd : List AsmOperand → Option Instr
  | [.v x, .num n] => asmByte n (.ldImm x)
  | [.v x, .v y] => some (.ldReg x y)
  | [.i, .num n] => asmAddr n .ldI
  | [.v x, .dt] => some (.ldVxDt x)
  | [.v x, .k] => some (.ldVxK x)
  | [.dt, .v x] => some (.ldDtVx x)
  | [.st, .v x] => some (.ldStVx x)
  | [.f, .v x] => some (.ldF x)
  | [.b, .v x] => some (.ldB x)
  | [.atI, .v x] => some (.stRegs x)
  | [.v x, .atI] => some (.ldRegs x)
  | _ => none

/-- The forms of `ADD` (rows 9, 14, 30). -/
def assembleAdd : List AsmOperand → Option Instr
  | [.v x, .num n] => asmByte n (.addImm x)
  | [.v x, .v y] => some (.addReg x y)
  | [.i, .v x] => some (.addI x)
  | _ => none

/-- The forms of `JP` (rows 3, 21): the offset jump names V0. -/
def assembleJp : List AsmOperand → Option Instr
  | [.num n] => asmAddr n .jp
  | [.v r, .num n] => if r = 0 then asmAddr n .jpV0 else none
  | _ => none

/-- A skip on a byte or on a register (rows 5 to 7, 19). -/
def assembleSkip (byte : Reg → Byte → Instr) (reg : Reg → Reg → Instr) : List AsmOperand → Option Instr
  | [.v x, .num n] => asmByte n (byte x)
  | [.v x, .v y] => some (reg x y)
  | _ => none

/-- Two register operands (rows 11 to 13, 15, 17). -/
def assembleRegs (f : Reg → Reg → Instr) : List AsmOperand → Option Instr
  | [.v x, .v y] => some (f x y)
  | _ => none

/-- A shift, whose second operand may be left out, Y = 0 then (rows 16, 18; 30_encoding.md R72). -/
def assembleShift (f : Reg → Reg → Instr) : List AsmOperand → Option Instr
  | [.v x, .v y] => some (f x y)
  | [.v x] => some (f x 0)
  | _ => none

/-- One register operand (rows 24, 25). -/
def assembleReg (f : Reg → Instr) : List AsmOperand → Option Instr
  | [.v x] => some (f x)
  | _ => none

/-- The instruction a mnemonic and its operands stand for; none for no form of 30_encoding.md R66. -/
def assembleOp (m : Mnemonic) (operands : List AsmOperand) : Option Instr :=
  match m with
  | .cls => if operands = [] then some .cls else none
  | .ret => if operands = [] then some .ret else none
  | .jp => assembleJp operands
  | .call => match operands with
    | [.num n] => asmAddr n .call
    | _ => none
  | .se => assembleSkip .seImm .seReg operands
  | .sne => assembleSkip .sneImm .sneReg operands
  | .ld => assembleLd operands
  | .add => assembleAdd operands
  | .or => assembleRegs .orReg operands
  | .and => assembleRegs .andReg operands
  | .xor => assembleRegs .xorReg operands
  | .sub => assembleRegs .subReg operands
  | .shr => assembleShift .shrReg operands
  | .subn => assembleRegs .subnReg operands
  | .shl => assembleShift .shlReg operands
  | .rnd => match operands with
    | [.v x, .num n] => asmByte n (.rnd x)
    | _ => none
  | .drw => match operands with
    | [.v x, .v y, .num n] => if n < 16 then some (.drw x y n) else none
    | _ => none
  | .skp => assembleReg .skp operands
  | .sknp => assembleReg .sknp operands

/-- The assembly of an instruction, every operand written (30_encoding.md R66, R74). -/
def disassemble : Instr → Mnemonic × List AsmOperand
  | .cls => (.cls, [])
  | .ret => (.ret, [])
  | .jp nnn => (.jp, [.num nnn.toNat])
  | .call nnn => (.call, [.num nnn.toNat])
  | .seImm x nn => (.se, [.v x, .num nn.toNat])
  | .sneImm x nn => (.sne, [.v x, .num nn.toNat])
  | .seReg x y => (.se, [.v x, .v y])
  | .ldImm x nn => (.ld, [.v x, .num nn.toNat])
  | .addImm x nn => (.add, [.v x, .num nn.toNat])
  | .ldReg x y => (.ld, [.v x, .v y])
  | .orReg x y => (.or, [.v x, .v y])
  | .andReg x y => (.and, [.v x, .v y])
  | .xorReg x y => (.xor, [.v x, .v y])
  | .addReg x y => (.add, [.v x, .v y])
  | .subReg x y => (.sub, [.v x, .v y])
  | .shrReg x y => (.shr, [.v x, .v y])
  | .subnReg x y => (.subn, [.v x, .v y])
  | .shlReg x y => (.shl, [.v x, .v y])
  | .sneReg x y => (.sne, [.v x, .v y])
  | .ldI nnn => (.ld, [.i, .num nnn.toNat])
  | .jpV0 nnn => (.jp, [.v 0, .num nnn.toNat])
  | .rnd x nn => (.rnd, [.v x, .num nn.toNat])
  | .drw x y n => (.drw, [.v x, .v y, .num n])
  | .skp x => (.skp, [.v x])
  | .sknp x => (.sknp, [.v x])
  | .ldVxDt x => (.ld, [.v x, .dt])
  | .ldVxK x => (.ld, [.v x, .k])
  | .ldDtVx x => (.ld, [.dt, .v x])
  | .ldStVx x => (.ld, [.st, .v x])
  | .addI x => (.add, [.i, .v x])
  | .ldF x => (.ld, [.f, .v x])
  | .ldB x => (.ld, [.b, .v x])
  | .stRegs x => (.ld, [.atI, .v x])
  | .ldRegs x => (.ld, [.v x, .atI])

/-- The bytes of a line: an instruction's word or a raw word, big-endian, or raw bytes
(30_encoding.md R72; 20_memory.md R43). -/
def assembleLine : AsmLine → Option (List Byte)
  | .op m operands => (assembleOp m operands).map encodeBytes
  | .dw n => if n < 65536 then some (bytesOfWord (BitVec.ofNat 16 n)) else none
  | .db bytes => if bytes.all (fun n => n < 256) then some (bytes.map (BitVec.ofNat 8)) else none

/-- The image a list of lines assembles to, one after another. -/
def assembleProgram : List AsmLine → Option (List Byte)
  | [] => some []
  | line :: rest =>
    match assembleLine line, assembleProgram rest with
    | some bytes, some more => some (bytes ++ more)
    | _, _ => none

/-! ### Lines as they are written -/

/-- One hexadecimal digit. -/
def hexDigit (n : Nat) : Char := "0123456789ABCDEF".toList.getD (n % 16) '0'

/-- The last `width` hexadecimal digits of a number, most significant first. -/
def hexDigits (n : Nat) : Nat → List Char
  | 0 => []
  | width + 1 => hexDigits (n / 16) width ++ [hexDigit n]

/-- A number, hexadecimal with `0x`, in as many digits as its field has (30_encoding.md R72). -/
def numberText (n : Nat) : String :=
  String.ofList ('0' :: 'x' :: hexDigits n (if n < 256 then 2 else if n < 4096 then 3 else 4))

/-- The mnemonic as 30_encoding.md R66 writes it. -/
def Mnemonic.text : Mnemonic → String
  | .cls => "CLS"
  | .ret => "RET"
  | .jp => "JP"
  | .call => "CALL"
  | .se => "SE"
  | .sne => "SNE"
  | .ld => "LD"
  | .add => "ADD"
  | .or => "OR"
  | .and => "AND"
  | .xor => "XOR"
  | .sub => "SUB"
  | .shr => "SHR"
  | .subn => "SUBN"
  | .shl => "SHL"
  | .rnd => "RND"
  | .drw => "DRW"
  | .skp => "SKP"
  | .sknp => "SKNP"

/-- The operand as 30_encoding.md R72 writes it. -/
def AsmOperand.text : AsmOperand → String
  | .v r => String.ofList ['V', hexDigit r.val]
  | .i => "I"
  | .dt => "DT"
  | .st => "ST"
  | .k => "K"
  | .f => "F"
  | .b => "B"
  | .atI => "[I]"
  | .num n => numberText n

/-- Operands separated by commas. -/
def operandsText : List AsmOperand → String
  | [] => ""
  | [a] => a.text
  | a :: rest => a.text ++ ", " ++ operandsText rest

/-- An instruction as it is written (30_encoding.md R72, R74). -/
def instructionText (i : Instr) : String :=
  match (disassemble i).2 with
  | [] => (disassemble i).1.text
  | operands => (disassemble i).1.text ++ " " ++ operandsText operands

end Sys2Proof.Machine
end

