-- ==== Sys2Proof/Safety.lean ====
section
/-! DEFINITION. What counts as a good state and a safe run, in the terms the statements use: the
state invariant, a run without a fault, and what two states agree on. -/

namespace Sys2Proof.Machine

/-- SP is `0x0EA0 + 4 × depth` with `depth` in 0..12 (10_state.md R15). -/
def spLegal (sp : Nat) : Prop := ∃ depth ≤ 12, sp = Config.stackBase + 4 * depth

/-- The invariant of the machine: MEM's canonical form (the model's), the ranges 10_state.md gives
SP (R15), DIV (R22) and PACER (R10), a fault record exactly when halted (R26), and that a waiting
machine is not halted and its last sample saw no key (R25, 45_keypad_timers.md R152). -/
structure State.Inv (s : State) : Prop where
  mem_wf : Memory.wf s.mem = true
  sp_legal : spLegal s.sp
  div_lt : s.div < Config.timerDivider
  pacer_le : s.pacer ≤ s.params.pacerStart
  fault_iff_halt : s.halt = s.fault.isSome
  wait_not_halted : s.wait = true → s.halt = false
  wait_no_key : s.wait = true → s.k = 0

/-- The machine will run an instruction at the next request: neither halted nor waiting (40_cycle.md R81). -/
def State.Running (s : State) : Prop := s.halt = false ∧ s.wait = false

/-- A safe run of `n` requests: it ends in a state that no fault has halted (60_exceptions.md R167:
"A halted state is never a successful end of a program"). -/
def SafeRun (n : Nat) (s : State) : Prop :=
  ∃ t, Host.Core.run Sys2Proof.core n s = .next t ∧ t.halt = false

/-- Every byte of MEM reads the same. -/
def SameMemory (s t : State) : Prop := ∀ a, Memory.read t.mem a = Memory.read s.mem a

/-- Every byte of MEM outside the `n` bytes from `addr` on reads the same. -/
def SameMemoryOutside (addr n : Nat) (s t : State) : Prop :=
  ∀ a, (a < addr ∨ addr + n ≤ a) → Memory.read t.mem a = Memory.read s.mem a

/-- `j` is the lowest-numbered line down in `lines` (45_keypad_timers.md R156). -/
def LowestLine (lines : Word) (j : Reg) : Prop :=
  lines.getLsbD j.val = true ∧ ∀ l < j.val, lines.getLsbD l = false

end Sys2Proof.Machine
end

