-- ==== Sys2Proof/Certificates/Slice0/Obligations.lean ====
section
/-! DEFINITION. The statements for the provers. `exec i s` is step 3 of the cycle: in `s` IP is
already the address of the following word and K already holds the cycle's sample
(40_cycle.md R83, R86). Marks [D<n>] are decisions of 92_eei_decisions.md: the spec's own choices,
each in the log entry named. -/

open Sys2Proof Sys2Proof.Machine

/-! ### Encoding -/

/-- Decode and encode agree: every well-formed instruction is read back from its word, and from its
bytes whatever follows them (30_encoding.md sections 1, 5, 6). -/
def Obligations.DecodeOfEncodeIsIdentity : Prop :=
  ∀ (i : Instr) (rest : List Byte), i.wf = true →
    decodeWord (encode i) = .ok i ∧ decodeBytes (encodeBytes i ++ rest) = .ok (i, rest)

/-- No bit of a word is lost: what the decoder reads is well-formed and encodes to the word it was
read from (30_encoding.md R74 "each text assembles to exactly one word"). -/
def Obligations.EncodeOfDecodeIsIdentity : Prop :=
  ∀ (w : Word) (i : Instr), decodeWord w = .ok i → i.wf = true ∧ encode i = w

/-- The decoder follows the opcode map: a word decodes to the instruction of row `n` iff
`w & mask = match` for that row (30_encoding.md R66, whose selector nibbles are [D10], log 18, and
whose low nibble of `5XY0`, `9XY0` is [D9], log 17). -/
def Obligations.DecodingFollowsTheOpcodeMap : Prop :=
  ∀ (w : Word) (n : Fin 34),
    (∃ i, decodeWord w = .ok i ∧ i.rowNumber = n) ↔ w &&& (opcodeRow n).mask = (opcodeRow n).bits

/-- The rejected words are those 30_encoding.md R68 lists by header, with headers 5 and 9 by R69
[D9] (log 17) and header 8 by the selectors [D10] (log 18). -/
def Obligations.RejectedWordsByHeader : Prop :=
  ∀ w : Word, (∃ r, decodeWord w = .reject r) ↔
    (header w = 0x0 ∧ w ≠ 0x00E0 ∧ w ≠ 0x00EE) ∨
    (header w = 0x5 ∧ fieldN w ≠ 0) ∨
    (header w = 0x8 ∧ fieldN w ∈ [0x8, 0x9, 0xA, 0xB, 0xC, 0xD, 0xF]) ∨
    (header w = 0x9 ∧ fieldN w ≠ 0) ∨
    (header w = 0xE ∧ fieldNN w ≠ 0x9E ∧ fieldNN w ≠ 0xA1) ∨
    (header w = 0xF ∧ fieldNN w ∉ [0x07, 0x0A, 0x15, 0x18, 0x1E, 0x29, 0x33, 0x55, 0x65])

/-- Words written out from the patterns of 30_encoding.md R66, one of each format, and one word
that is no instruction. That 0x8AB6, selector nibble 6, is SHR is not the source's: R67 takes it from
the CHIP-8 convention ([D10], log 18, PRESUMED). -/
def Obligations.WrittenOutWordsDecode : Prop :=
  decodeWord 0x00E0 = .ok .cls ∧
  decodeWord 0x1ABC = .ok (.jp 0xABC) ∧
  decodeWord 0x3A7F = .ok (.seImm 0xA 0x7F) ∧
  decodeWord 0x8AB6 = .ok (.shrReg 0xA 0xB) ∧
  decodeWord 0xD12F = .ok (.drw 1 2 15) ∧
  decodeWord 0xFE65 = .ok (.ldRegs 0xE) ∧
  decodeWord 0x0000 = .reject .header0

/-- Assembly is unique: every well-formed instruction assembles back from its line, and a line that
assembles is that instruction's only one, but for the shifts with VY left out, which have Y = 0
(30_encoding.md R72, R74; the mnemonics are [D25], log 36). -/
def Obligations.AssemblyIsUnique : Prop :=
  (∀ i : Instr, i.wf = true → assembleOp (disassemble i).1 (disassemble i).2 = some i) ∧
  (∀ (m : Mnemonic) (ops : List AsmOperand) (i : Instr), assembleOp m ops = some i → i.wf = true ∧
    (disassemble i = (m, ops) ∨ ∃ x, ops = [.v x] ∧
      ((m = .shr ∧ i = .shrReg x 0) ∨ (m = .shl ∧ i = .shlReg x 0))))

/-! ### The cycle -/

/-- A step runs the decoded instruction: with no halt, no wait and IP in 0..4094, when the two bytes
at IP decode to `i`, the step is `exec i` on the state with IP advanced by 2 and the keypad latch
refreshed, then the timer step unless the instruction faulted or entered the wait
(40_cycle.md R81 to R85; the waiting dispatch is [D15], log 22). -/
def Obligations.StepRunsTheDecodedInstruction : Prop :=
  ∀ (s : State) (i : Instr), s.halt = false → s.wait = false → s.ip.toNat ≤ 4094 →
    decodeBytes [Memory.read s.mem s.ip.toNat, Memory.read s.mem (s.ip.toNat + 1)] = .ok (i, []) →
    ∃ u,
      exec i { s with
        ip := s.ip + 2
        k := s.keySample
        keyQueue := s.keyQueue.tail
        keyDraws := s.keyDraws + 1 } = .next u ∧
      step s = .next (if u.halt = true ∨ u.wait = true then u else u.timerStep)

/-- Fetch, with IP in 0..4094: it reads the big-endian word at IP (20_memory.md R43), advances IP by 2
and changes nothing else (40_cycle.md R82). The fault outside that range is `FetchBeyondMemoryHalts`. -/
def Obligations.FetchedWordIsBigEndian : Prop :=
  ∀ s : State, s.ip.toNat ≤ 4094 → ∃ w t, s.fetch = .ok (w, t) ∧
    w.toNat = 256 * (Memory.read s.mem s.ip.toNat).toNat + (Memory.read s.mem (s.ip.toNat + 1)).toNat ∧
    t.ip.toNat = s.ip.toNat + 2 ∧ t = { s with ip := t.ip }

/-- A fetch beyond 4094 is the AddressFault of the lowest outside address; IP is not advanced, K is
not refreshed, nothing else changes (40_cycle.md R82; [D7], log 14; the HALT record is [D23], log 25). -/
def Obligations.FetchBeyondMemoryHalts : Prop :=
  ∀ s : State, s.halt = false → s.wait = false → 4094 < s.ip.toNat →
    step s = .next { s with
      halt := true
      fault := some ⟨.addressFault, BitVec.ofNat 32 (max s.ip.toNat 0x1000)⟩ }

/-- A word that is no instruction halts the machine with that word in the record; only the fetch
advance and the keypad refresh stand (60_exceptions.md R161; the record and the state left are
[D23], log 25). -/
def Obligations.IllegalWordHaltsWithThatWord : Prop :=
  ∀ (s : State) (r : DecodeReject), s.halt = false → s.wait = false → s.ip.toNat ≤ 4094 →
    decodeBytes [Memory.read s.mem s.ip.toNat, Memory.read s.mem (s.ip.toNat + 1)] = .reject r →
    step s = .next { s with
      ip := s.ip + 2
      k := s.keySample
      keyQueue := s.keyQueue.tail
      keyDraws := s.keyDraws + 1
      halt := true
      fault := some ⟨.unimplementedInstruction, BitVec.ofNat 32
        (256 * (Memory.read s.mem s.ip.toNat).toNat + (Memory.read s.mem (s.ip.toNat + 1)).toNat)⟩ }

/-- Once halted, no number of cycle requests changes anything (40_cycle.md R81, 60_exceptions.md
R167 "only reset leaves the state"; the HALT rendering is [D23], log 25). -/
def Obligations.HaltedMachineNeverChanges : Prop :=
  ∀ (n : Nat) (s : State), s.halt = true → Host.Core.run Sys2Proof.core n s = .next s

/-- The model never stops: every request, and every number of requests, has a next state (40_cycle.md
R81 and R89 "Terminal state: none"; that the six faults are next states is the model's choice, log 1). -/
def Obligations.EveryRunHasANextState : Prop :=
  ∀ (n : Nat) (s : State), ∃ t, Host.Core.run Sys2Proof.core n s = .next t

/-- A request while waiting polls the keypad once: with no line down only K changes (and the input
counters of log 2); with a line down V[WX] receives the lowest one's number, the wait ends and the
timers step once (45_keypad_timers.md R152; [D15], log 22). -/
def Obligations.WaitingMachinePollsTheKeypad : Prop :=
  ∀ s : State, s.halt = false → s.wait = true →
    (s.keySample = 0 →
      step s = .next { s with k := 0, keyQueue := s.keyQueue.tail, keyDraws := s.keyDraws + 1 }) ∧
    (s.keySample ≠ 0 → ∃ j, LowestLine s.keySample j ∧
      step s = .next { s with
        k := s.keySample
        keyQueue := s.keyQueue.tail
        keyDraws := s.keyDraws + 1
        v := s.v.set s.wx.val (BitVec.ofNat 8 j.val)
        wait := false }.timerStep)

/-- The timers move only in completed cycles: a request that ends halted or waiting moves neither
PACER, DIV, DT nor ST; every other request moves DIV on by one modulo 10 (40_cycle.md R81, R85;
60_exceptions.md R177; the divider is [D19], log 13; the frozen wait is [D15], log 22). -/
def Obligations.TimersMoveOnlyInCompletedCycles : Prop :=
  ∀ s t : State, s.div < 10 → step s = .next t →
    ((t.halt = true ∨ t.wait = true) →
      t.pacer = s.pacer ∧ t.div = s.div ∧ t.dt = s.dt ∧ t.st = s.st) ∧
    (t.halt = false → t.wait = false → t.div = (s.div + 1) % 10)

/-! ### The invariant -/

/-- Every step keeps the invariant: canonical memory, SP a frame boundary of the stack, DIV in 0..9,
PACER at most PACER_START, a record exactly when halted, a waiting machine not halted and with no
key seen (Safety.lean `State.Inv`; 10_state.md R10, R15, R22, R25, R26). -/
def Obligations.StepKeepsTheInvariant : Prop :=
  ∀ s t : State, s.Inv → step s = .next t → t.Inv

/-- The invariant holds after reset. -/
def Obligations.ResetMeetsTheInvariant : Prop := State.reset.Inv

/-- The invariant holds of every machine reset builds, for any parameters, font, fill and image. -/
def Obligations.BootMeetsTheInvariant : Prop :=
  ∀ (p : Params) (font : Vector Byte 80) (fill : Byte) (image : List Byte), (boot p font fill image).Inv

/-! ### Reset -/

/-- What reset leaves in every element (70_reset_and_hazards.md R191). IP, SP, V and FB are stated
by the source; I [D22] (log 11), DT and ST [D17] (log 10), DIV [D19] (log 13), K, WAIT and WX [D22]
(log 12), the fill 0 [D20] (log 9) are the spec's decisions. -/
def Obligations.ResetStateOfEveryElement : Prop :=
  State.reset.ip = 0x200 ∧ State.reset.sp = 0x0EA0 ∧ (∀ r, State.reset.reg r = 0) ∧
  State.reset.i = 0 ∧ (∀ x y, Framebuffer.cell State.reset.fb x y = false) ∧
  State.reset.dt = 0 ∧ State.reset.st = 0 ∧ State.reset.div = 0 ∧
  State.reset.pacer = State.reset.params.pacerStart ∧
  State.reset.k = 0 ∧ State.reset.wait = false ∧ State.reset.wx = 0 ∧
  State.reset.halt = false ∧ State.reset.fault = none ∧
  (∀ a, 80 ≤ a → Memory.read State.reset.mem a = 0) ∧
  (∀ a (h : a < 80), Memory.read State.reset.mem a = fontVector[a])

/-- Reset with a valid image, for every font, fill and parameters: memory byte by byte, and the
stated registers (70_reset_and_hazards.md R191, R192). -/
def Obligations.BootLoadsFontFillAndImage : Prop :=
  ∀ (p : Params) (font : Vector Byte 80) (fill : Byte) (image : List Byte), image.length ≤ 3584 →
    (∀ a (h : a < 80), Memory.read (boot p font fill image).mem a = font[a]) ∧
    (∀ k (h : k < image.length), Memory.read (boot p font fill image).mem (0x200 + k) = image[k]) ∧
    (∀ a, 80 ≤ a → a < 0x1000 → (a < 0x200 ∨ 0x200 + image.length ≤ a) →
      Memory.read (boot p font fill image).mem a = fill) ∧
    boot p font fill image =
      { State.reset with params := p, pacer := p.pacerStart, mem := (boot p font fill image).mem }

/-- Reset with an oversized image: halted with InvalidLoad and the saturated length, no byte of the
image copied, and no cycle ever runs (70_reset_and_hazards.md R193; the HALT rendering is [D23], log 27). -/
def Obligations.OversizedImageIsRejected : Prop :=
  ∀ (p : Params) (font : Vector Byte 80) (fill : Byte) (image : List Byte), 3584 < image.length →
    (boot p font fill image).halt = true ∧
    (boot p font fill image).fault =
      some ⟨.invalidLoad, BitVec.ofNat 32 (min image.length 0xFFFFFFFF)⟩ ∧
    (boot p font fill image).mem = (boot p font fill []).mem ∧
    ∀ n, Host.Core.run Sys2Proof.core n (boot p font fill image) = .next (boot p font fill image)

/-! ### Whole-machine rules -/

/-- Faults are precise and each comes from the instructions that may raise it: an instruction that
faults has performed none of its own writes (60_exceptions.md R160, R168; the record is [D23], log 25;
AddressFault [D6] [D7], logs 14, 15; KeyIndexFault [D8], log 16). SP is assumed a frame boundary, the
invariant `StepKeepsTheInvariant` keeps. -/
def Obligations.FaultingInstructionWritesOnlyTheRecord : Prop :=
  ∀ (i : Instr) (s t : State), spLegal s.sp → s.halt = false → exec i s = .next t → t.halt = true →
    ∃ f : FaultRecord, t = { s with halt := true, fault := some f } ∧
      (f.kind = .stackOverflow ∧ (∃ nnn, i = .call nnn) ∨
       f.kind = .stackUnderflow ∧ i = .ret ∨
       f.kind = .addressFault ∧ (i = .ret ∨ (∃ x y n, i = .drw x y n) ∨
         ∃ x, i = .ldB x ∨ i = .stRegs x ∨ i = .ldRegs x) ∨
       f.kind = .keyIndexFault ∧ ∃ x, i = .skp x ∨ i = .sknp x)

/-- No instruction other than `2NNN`, `FX33` and `FX55` changes a byte of MEM (20_memory.md R42). -/
def Obligations.OnlyCallAndStoresWriteMemory : Prop :=
  ∀ (i : Instr) (s t : State), exec i s = .next t →
    (∀ nnn, i ≠ .call nnn) → (∀ x, i ≠ .ldB x) → (∀ x, i ≠ .stRegs x) → SameMemory s t

/-- Which instructions may change each element besides the registers, IP, MEM and the fault record:
SP only `2NNN` and `00EE`; FB only `00E0` and `DXYN`; I only `ANNN`, `FX1E` and `FX29`; DT only
`FX15`; ST only `FX18`; WAIT and WX only `FX0A`; PACER, DIV and K none; the random port is drawn
from only by `CXNN`, the key port and the parameters are touched by none (00_scope.md R8 [D13],
log 20; 44_display.md R144; 60_exceptions.md R178). -/
def Obligations.ElementsChangeOnlyByTheirInstructions : Prop :=
  ∀ (i : Instr) (s t : State), exec i s = .next t →
    (t.sp ≠ s.sp → i = .ret ∨ ∃ nnn, i = .call nnn) ∧
    (t.fb ≠ s.fb → i = .cls ∨ ∃ x y n, i = .drw x y n) ∧
    (t.i ≠ s.i → (∃ nnn, i = .ldI nnn) ∨ ∃ x, i = .addI x ∨ i = .ldF x) ∧
    (t.dt ≠ s.dt → ∃ x, i = .ldDtVx x) ∧
    (t.st ≠ s.st → ∃ x, i = .ldStVx x) ∧
    (t.wait ≠ s.wait ∨ t.wx ≠ s.wx → ∃ x, i = .ldVxK x) ∧
    (t.rndQueue ≠ s.rndQueue ∨ t.rndDraws ≠ s.rndDraws → ∃ x nn, i = .rnd x nn) ∧
    t.pacer = s.pacer ∧ t.div = s.div ∧ t.k = s.k ∧ t.params = s.params ∧
    t.keyQueue = s.keyQueue ∧ t.keyDraws = s.keyDraws

/-! ### Control flow -/

/-- `1NNN`: IP := NNN, whatever its value; no flag, no fault (41_control_flow.md R90). -/
def Obligations.JumpGoesToItsTarget : Prop :=
  ∀ (nnn : Addr12) (s : State), ∃ t, exec (.jp nnn) s = .next t ∧
    t.ip.toNat = nnn.toNat ∧ t.v = s.v ∧ t.halt = s.halt

/-- `BNNN`: IP := V0 + NNN, never reduced; VF not written even when the sum exceeds 0xFFF, and no
fault at the jump (41_control_flow.md R93; that VF is not written is [D13], log 20, DESIGN CHOICE). -/
def Obligations.OffsetJumpAddsRegisterZero : Prop :=
  ∀ (nnn : Addr12) (s : State), ∃ t, exec (.jpV0 nnn) s = .next t ∧
    t.ip.toNat = (s.reg 0).toNat + nnn.toNat ∧ t.v = s.v ∧ t.halt = s.halt

/-- `3XNN` and `4XNN`: IP advances by an extra 2 exactly when V[X] equals, or differs from, NN; it
is written only then; no flag, no fault (41_control_flow.md R94, R95). -/
def Obligations.ImmediateSkips : Prop :=
  ∀ (x : Reg) (nn : Byte) (s : State),
    (∃ t, exec (.seImm x nn) s = .next t ∧
      (s.reg x = nn → t.ip = s.ip + 2) ∧ (s.reg x ≠ nn → t.ip = s.ip) ∧
      t.v = s.v ∧ t.halt = s.halt) ∧
    (∃ t, exec (.sneImm x nn) s = .next t ∧
      (s.reg x ≠ nn → t.ip = s.ip + 2) ∧ (s.reg x = nn → t.ip = s.ip) ∧
      t.v = s.v ∧ t.halt = s.halt)

/-- `5XY0` and `9XY0`: the same with two registers; with X = Y the first always skips and the second
never does; only IP may change (41_control_flow.md R96, R97; frame by 00_scope.md R8 [D13], log 20). -/
def Obligations.RegisterSkips : Prop :=
  ∀ (x y : Reg) (s : State),
    exec (.seReg x y) s =
      .next { s with ip := if (s.reg x).toNat = (s.reg y).toNat then s.ip + 2 else s.ip } ∧
    exec (.sneReg x y) s =
      .next { s with ip := if (s.reg x).toNat = (s.reg y).toNat then s.ip else s.ip + 2 } ∧
    exec (.seReg x x) s = .next { s with ip := s.ip + 2 } ∧
    exec (.sneReg x x) s = .next s

/-- `2NNN` with fewer than 12 calls pending: IP goes to NNN, SP up by 4, the 4 bytes at the old SP
hold IP as a 32-bit value in FRAME_ORDER, and nothing else changes (41_control_flow.md R91, R98; the
frame's content is [D4], log 5; the order of write and increment [D5], log 24). -/
def Obligations.CallPushesTheReturnAddress : Prop :=
  ∀ (nnn : Addr12) (s : State), Memory.wf s.mem = true → spLegal s.sp → s.sp ≠ 0x0ED0 →
    ∃ t, exec (.call nnn) s = .next t ∧
      t.ip.toNat = nnn.toNat ∧ t.sp = s.sp + 4 ∧
      (s.params.frameOrder = .big →
        Memory.read t.mem s.sp = 0 ∧ Memory.read t.mem (s.sp + 1) = 0 ∧
        (Memory.read t.mem (s.sp + 2)).toNat = s.ip.toNat / 256 ∧
        (Memory.read t.mem (s.sp + 3)).toNat = s.ip.toNat % 256) ∧
      (s.params.frameOrder = .little →
        (Memory.read t.mem s.sp).toNat = s.ip.toNat % 256 ∧
        (Memory.read t.mem (s.sp + 1)).toNat = s.ip.toNat / 256 ∧
        Memory.read t.mem (s.sp + 2) = 0 ∧ Memory.read t.mem (s.sp + 3) = 0) ∧
      SameMemoryOutside s.sp 4 s t ∧
      t = { s with mem := t.mem, sp := t.sp, ip := t.ip }

/-- The stack limits: a call with 12 pending is StackOverflow, a return with none is StackUnderflow;
each reports its own word and writes nothing else (60_exceptions.md R162, R163; the record is [D23], log 25). -/
def Obligations.StackLimitsFault : Prop :=
  ∀ (nnn : Addr12) (s : State),
    (s.sp = 0x0ED0 → exec (.call nnn) s = .next { s with
      halt := true, fault := some ⟨.stackOverflow, BitVec.ofNat 32 (0x2000 + nnn.toNat)⟩ }) ∧
    (s.sp = 0x0EA0 → exec .ret s = .next { s with
      halt := true, fault := some ⟨.stackUnderflow, 0x00EE⟩ })

/-- `00EE` with a call pending: with `v32` the value of the frame below SP in FRAME_ORDER, IP := v32
and SP down by 4 when its upper half is 0, memory untouched; else AddressFault(v32), nothing else
written (41_control_flow.md R92, R98; the order is [D4], log 5; the fault [D6], log 15). -/
def Obligations.ReturnPopsTheFrame : Prop :=
  ∀ (s : State) (v32 : Nat), spLegal s.sp → s.sp ≠ 0x0EA0 →
    (s.params.frameOrder = .big → v32 =
      0x1000000 * (Memory.read s.mem (s.sp - 4)).toNat + 0x10000 * (Memory.read s.mem (s.sp - 3)).toNat +
      0x100 * (Memory.read s.mem (s.sp - 2)).toNat + (Memory.read s.mem (s.sp - 1)).toNat) →
    (s.params.frameOrder = .little → v32 =
      0x1000000 * (Memory.read s.mem (s.sp - 1)).toNat + 0x10000 * (Memory.read s.mem (s.sp - 2)).toNat +
      0x100 * (Memory.read s.mem (s.sp - 3)).toNat + (Memory.read s.mem (s.sp - 4)).toNat) →
    (v32 < 0x10000 → ∃ t, exec .ret s = .next t ∧ t.ip.toNat = v32 ∧ t.sp = s.sp - 4 ∧
      SameMemory s t ∧ t = { s with ip := t.ip, sp := t.sp }) ∧
    (0x10000 ≤ v32 → exec .ret s = .next { s with
      halt := true, fault := some ⟨.addressFault, BitVec.ofNat 32 v32⟩ })

/-- A call followed by a return, in either frame order, goes back to the instruction after the call
and restores SP, in every state `t'` where the return runs with the call's SP, parameters and frame
bytes (41_control_flow.md R92; the frame's content is [D4], log 5). -/
def Obligations.CallThenReturnComesBack : Prop :=
  ∀ (nnn : Addr12) (s : State), Memory.wf s.mem = true → spLegal s.sp → s.sp ≠ 0x0ED0 →
    ∃ t, exec (.call nnn) s = .next t ∧
      ∀ t' : State, t'.sp = t.sp → t'.params = t.params →
        (∀ k < 4, Memory.read t'.mem (s.sp + k) = Memory.read t.mem (s.sp + k)) →
        ∃ u, exec .ret t' = .next u ∧ u.ip = s.ip ∧ u.sp = s.sp

/-! ### Registers and the ALU -/

/-- `6XNN` and `7XNN`: V[X] := NN, and V[X] := (V[X] + NN) mod 256 with VF not written even on wrap,
unless VF is the destination (42_alu.md R110, R111). -/
def Obligations.ImmediateLoadAndAdd : Prop :=
  ∀ (x : Reg) (nn : Byte) (s : State),
    (∃ t, exec (.ldImm x nn) s = .next t ∧ t.reg x = nn ∧
      (x ≠ vf → t.reg vf = s.reg vf) ∧ t.halt = s.halt) ∧
    (∃ t, exec (.addImm x nn) s = .next t ∧
      (t.reg x).toNat = ((s.reg x).toNat + nn.toNat) % 256 ∧
      (x ≠ vf → t.reg vf = s.reg vf) ∧ t.halt = s.halt)

/-- `8XY0` to `8XY3`: assign, OR, AND, XOR bit by bit, from the values before the instruction; VF is
not written unless it is the destination (42_alu.md R112 to R115, which rest that on 00_scope.md R8:
the spec's decision [D13], log 20, DESIGN CHOICE; 91_not_in_source.md N17). -/
def Obligations.AssignAndLogic : Prop :=
  ∀ (x y : Reg) (s : State),
    (∃ t, exec (.ldReg x y) s = .next t ∧ t.reg x = s.reg y ∧
      (x ≠ vf → t.reg vf = s.reg vf) ∧ t.halt = s.halt) ∧
    (∃ t, exec (.orReg x y) s = .next t ∧
      (∀ b, (t.reg x).getLsbD b = ((s.reg x).getLsbD b || (s.reg y).getLsbD b)) ∧
      (x ≠ vf → t.reg vf = s.reg vf) ∧ t.halt = s.halt) ∧
    (∃ t, exec (.andReg x y) s = .next t ∧
      (∀ b, (t.reg x).getLsbD b = ((s.reg x).getLsbD b && (s.reg y).getLsbD b)) ∧
      (x ≠ vf → t.reg vf = s.reg vf) ∧ t.halt = s.halt) ∧
    (∃ t, exec (.xorReg x y) s = .next t ∧
      (∀ b, (t.reg x).getLsbD b = ((s.reg x).getLsbD b ^^ (s.reg y).getLsbD b)) ∧
      (x ≠ vf → t.reg vf = s.reg vf) ∧ t.halt = s.halt)

/-- What the plain register instructions leave unchanged: `6XNN`, `7XNN`, `8XY0` to `8XY3` and `FX07`
change V[X] only (00_scope.md R8 [D13], log 20). -/
def Obligations.FrameOfPlainRegisterWrites : Prop :=
  ∀ (i : Instr) (x y : Reg) (nn : Byte) (s t : State),
    i ∈ [.ldImm x nn, .addImm x nn, .ldReg x y, .orReg x y, .andReg x y, .xorReg x y, .ldVxDt x] →
    exec i s = .next t →
    (∀ r, r ≠ x → t.reg r = s.reg r) ∧ SameMemory s t ∧ t = { s with v := t.v }

/-- `8XY4`, `8XY5`, `8XY7`: result modulo 256 and the carry or not-borrow in VF, from the values
before the instruction (42_alu.md R116, R117, R119, R123). With X = F the flag is what VF holds
([D12], log 19). Nothing else changes ([D13], log 20). -/
def Obligations.AddAndSubtractSetTheFlag : Prop :=
  ∀ (x y : Reg) (s : State),
    (∃ t, exec (.addReg x y) s = .next t ∧
      (x ≠ vf → (t.reg x).toNat = ((s.reg x).toNat + (s.reg y).toNat) % 256) ∧
      (t.reg vf).toNat = (if (s.reg x).toNat + (s.reg y).toNat > 255 then 1 else 0) ∧
      (∀ r, r ≠ x → r ≠ vf → t.reg r = s.reg r) ∧ SameMemory s t ∧ t = { s with v := t.v }) ∧
    (∃ t, exec (.subReg x y) s = .next t ∧
      (x ≠ vf → (t.reg x).toNat = ((s.reg x).toNat + 256 - (s.reg y).toNat) % 256) ∧
      (t.reg vf).toNat = (if (s.reg x).toNat ≥ (s.reg y).toNat then 1 else 0) ∧
      (∀ r, r ≠ x → r ≠ vf → t.reg r = s.reg r) ∧ SameMemory s t ∧ t = { s with v := t.v }) ∧
    (∃ t, exec (.subnReg x y) s = .next t ∧
      (x ≠ vf → (t.reg x).toNat = ((s.reg y).toNat + 256 - (s.reg x).toNat) % 256) ∧
      (t.reg vf).toNat = (if (s.reg y).toNat ≥ (s.reg x).toNat then 1 else 0) ∧
      (∀ r, r ≠ x → r ≠ vf → t.reg r = s.reg r) ∧ SameMemory s t ∧ t = { s with v := t.v })

/-- `8XY6`, `8XYE`: a logical shift by one of the source, VX, or VY when SHIFT_SRC = Y, with the bit
shifted out in VF (42_alu.md R118, R120; the source is [D11], log 6; with X = F the flag stays,
[D12], log 19). Nothing else changes ([D13], log 20). -/
def Obligations.ShiftsMoveOneBitIntoTheFlag : Prop :=
  ∀ (x y : Reg) (s : State) (b : Byte),
    (s.params.shiftSrc = .x → b = s.reg x) → (s.params.shiftSrc = .y → b = s.reg y) →
    (∃ t, exec (.shrReg x y) s = .next t ∧
      (x ≠ vf → (t.reg x).toNat = b.toNat / 2) ∧ (t.reg vf).toNat = b.toNat % 2 ∧
      (∀ r, r ≠ x → r ≠ vf → t.reg r = s.reg r) ∧ SameMemory s t ∧ t = { s with v := t.v }) ∧
    (∃ t, exec (.shlReg x y) s = .next t ∧
      (x ≠ vf → (t.reg x).toNat = 2 * b.toNat % 256) ∧ (t.reg vf).toNat = b.toNat / 128 ∧
      (∀ r, r ≠ x → r ≠ vf → t.reg r = s.reg r) ∧ SameMemory s t ∧ t = { s with v := t.v })

/-- `CXNN`: V[X] := a byte of the random port ANDed with NN; exactly one byte is drawn, the next one
on the port (`rndQueue`), or a free value when none is queued, of which nothing is known; no bit is
set that NN lacks; nothing else changes (42_alu.md R121; 60_exceptions.md R182 [D16], log 3; [D13], log 20). -/
def Obligations.RandomByteIsMasked : Prop :=
  ∀ (x : Reg) (nn : Byte) (s : State), ∃ t r, exec (.rnd x nn) s = .next t ∧
    (∀ b rest, s.rndQueue = b :: rest → r = b ∧ t.rndQueue = rest) ∧
    t.reg x = r &&& nn ∧ t.reg x &&& ~~~nn = 0 ∧ t.rndDraws = s.rndDraws + 1 ∧
    (∀ r', r' ≠ x → t.reg r' = s.reg r') ∧ SameMemory s t ∧
    t = { s with v := t.v, rndQueue := s.rndQueue.tail, rndDraws := t.rndDraws }

/-! ### The address register and memory -/

/-- `ANNN`, `FX1E`, `FX29`: I := NNN; I := (I + VX) mod 65536, VF not written even on wrap; I := 5 × VX
with the whole byte used; none writes MEM, VF or another register, and none faults (43_index_memory.md
R130, R131, R132; that `FX1E` leaves VF alone rests on 00_scope.md R8, the decision [D13], log 20,
DESIGN CHOICE; 91_not_in_source.md N17). -/
def Obligations.IndexRegisterResults : Prop :=
  ∀ (nnn : Addr12) (x : Reg) (s : State),
    (∃ t, exec (.ldI nnn) s = .next t ∧ t.i.toNat = nnn.toNat ∧
      SameMemory s t ∧ t.v = s.v ∧ t.halt = s.halt) ∧
    (∃ t, exec (.addI x) s = .next t ∧ t.i.toNat = (s.i.toNat + (s.reg x).toNat) % 65536 ∧
      SameMemory s t ∧ t.v = s.v ∧ t.halt = s.halt) ∧
    (∃ t, exec (.ldF x) s = .next t ∧ t.i.toNat = 5 * (s.reg x).toNat ∧
      SameMemory s t ∧ t.v = s.v ∧ t.halt = s.halt)

/-- `FX33` with I + 2 in memory: the bytes at I, I + 1, I + 2 are the hundreds, tens and ones of VX,
each a digit; every other byte, every register and I are unchanged (43_index_memory.md R133, R136
[D13], log 20). -/
def Obligations.DecimalDigitsAreStored : Prop :=
  ∀ (x : Reg) (s : State), Memory.wf s.mem = true → s.i.toNat + 2 ≤ 0xFFF →
    ∃ t, exec (.ldB x) s = .next t ∧
      (Memory.read t.mem s.i.toNat).toNat ≤ 2 ∧
      (Memory.read t.mem (s.i.toNat + 1)).toNat ≤ 9 ∧
      (Memory.read t.mem (s.i.toNat + 2)).toNat ≤ 9 ∧
      100 * (Memory.read t.mem s.i.toNat).toNat + 10 * (Memory.read t.mem (s.i.toNat + 1)).toNat +
        (Memory.read t.mem (s.i.toNat + 2)).toNat = (s.reg x).toNat ∧
      SameMemoryOutside s.i.toNat 3 s t ∧ t = { s with mem := t.mem }

/-- `FX55` with I + X in memory: MEM[I + k] is V[k] for k in 0..X; every other byte, every register
and I are unchanged (43_index_memory.md R134, R136 [D13], log 20). -/
def Obligations.RegisterBlockIsStored : Prop :=
  ∀ (x : Reg) (s : State), Memory.wf s.mem = true → s.i.toNat + x.val ≤ 0xFFF →
    ∃ t, exec (.stRegs x) s = .next t ∧
      (∀ k : Reg, k ≤ x → Memory.read t.mem (s.i.toNat + k.val) = s.reg k) ∧
      SameMemoryOutside s.i.toNat (x.val + 1) s t ∧ t = { s with mem := t.mem }

/-- `FX65` with I + X in memory: V[k] is MEM[I + k] for k in 0..X; every register above X, memory and
I are unchanged (43_index_memory.md R135, R136 [D13], log 20). -/
def Obligations.RegisterBlockIsLoaded : Prop :=
  ∀ (x : Reg) (s : State), s.i.toNat + x.val ≤ 0xFFF →
    ∃ t, exec (.ldRegs x) s = .next t ∧
      (∀ k : Reg, k ≤ x → t.reg k = Memory.read s.mem (s.i.toNat + k.val)) ∧
      (∀ k : Reg, x < k → t.reg k = s.reg k) ∧ SameMemory s t ∧ t = { s with v := t.v }

/-- A data access that leaves 0x000..0xFFF is AddressFault(max(I, 0x1000)) with none of the
instruction's writes done: `FX33`, `FX55`, `FX65`, and `DXYN` with at least one row
(60_exceptions.md R165 (b), 20_memory.md R41, R56 [D7], log 14). -/
def Obligations.DataAccessOutsideMemoryHalts : Prop :=
  ∀ (x y : Reg) (n : Nat) (s : State),
    (0xFFF < s.i.toNat + 2 → exec (.ldB x) s = .next { s with
      halt := true, fault := some ⟨.addressFault, BitVec.ofNat 32 (max s.i.toNat 0x1000)⟩ }) ∧
    (0xFFF < s.i.toNat + x.val →
      exec (.stRegs x) s = .next { s with
        halt := true, fault := some ⟨.addressFault, BitVec.ofNat 32 (max s.i.toNat 0x1000)⟩ } ∧
      exec (.ldRegs x) s = .next { s with
        halt := true, fault := some ⟨.addressFault, BitVec.ofNat 32 (max s.i.toNat 0x1000)⟩ }) ∧
    (1 ≤ n → 0xFFF < s.i.toNat + n - 1 → exec (.drw x y n) s = .next { s with
      halt := true, fault := some ⟨.addressFault, BitVec.ofNat 32 (max s.i.toNat 0x1000)⟩ })

/-- A register block stored by `FX55` is read back by a later `FX65` with the same X and I, in every
state `t'` that still holds the stored memory (43_index_memory.md R134, R135; 20_memory.md R51 (c)). -/
def Obligations.StoredBlockIsLoadedBack : Prop :=
  ∀ (x : Reg) (s : State), Memory.wf s.mem = true → s.i.toNat + x.val ≤ 0xFFF →
    ∃ t, exec (.stRegs x) s = .next t ∧
      ∀ t' : State, t'.i = s.i → t'.mem = t.mem →
        ∃ u, exec (.ldRegs x) t' = .next u ∧ ∀ k : Reg, k ≤ x → u.reg k = s.reg k

/-- A store is seen by the next fetch: after `FX55`, a fetch from an address whose two bytes it stored
reads the word of those registers (20_memory.md R54). -/
def Obligations.StoreIsSeenByFetch : Prop :=
  ∀ (x : Reg) (s : State), Memory.wf s.mem = true → s.i.toNat + x.val ≤ 0xFFF →
    ∃ t, exec (.stRegs x) s = .next t ∧
      ∀ (t' : State) (k : Nat) (h : k + 1 ≤ x.val), t'.mem = t.mem → t'.ip.toNat = s.i.toNat + k →
        ∃ w u, t'.fetch = .ok (w, u) ∧
          w.toNat = 256 * (s.reg ⟨k, by omega⟩).toNat + (s.reg ⟨k + 1, by omega⟩).toNat

/-- The memory primitives: a write inside memory is read back as it was written and leaves every
other byte alone; an access of no bytes never faults; any other access outside memory is
AddressFault(max(addr, 0x1000)) (20_memory.md R41 [D7], log 14). -/
def Obligations.MemoryPrimitivesObeyTheirLaw : Prop :=
  ∀ (s : State) (addr : Nat) (bytes : List Byte), Memory.wf s.mem = true →
    (bytes = [] ∨ addr + bytes.length ≤ 0x1000 →
      ∃ t, s.memWrite addr bytes = .ok t ∧ t.memRead addr bytes.length = .ok bytes ∧
        SameMemoryOutside addr bytes.length s t ∧ Memory.wf t.mem = true ∧ t = { s with mem := t.mem }) ∧
    (bytes ≠ [] → 0x1000 < addr + bytes.length →
      s.memWrite addr bytes = .error ⟨.addressFault, BitVec.ofNat 32 (max addr 0x1000)⟩ ∧
      s.memRead addr bytes.length = .error ⟨.addressFault, BitVec.ofNat 32 (max addr 0x1000)⟩)

/-! ### The framebuffer -/

/-- `00E0`: all 2048 cells are 0, the registers, VF among them, and I unchanged, no fault (44_display.md
R140, R143). -/
def Obligations.ClearScreenZeroesEveryCell : Prop :=
  ∀ s : State, ∃ t, exec .cls s = .next t ∧
    (∀ x y, Framebuffer.cell t.fb x y = false) ∧ t.v = s.v ∧ t.i = s.i ∧ t.halt = s.halt

/-- One drawn pixel: x and y wrap independently, the bit is XORed into that one cell and every other
cell is as before (44_display.md R142); VF receives the cell's old value whatever the sprite bit is
(44_display.md R141 in reading (a) of 90_conflicts.md C2: the decision [D14], log 21, DESIGN CHOICE). -/
def Obligations.SetPixelXorsOneWrappedCell : Prop :=
  ∀ (s : State) (x y : Nat) (b : Bool) (px py : Nat),
    Framebuffer.cell (s.drawPixel x y b).fb px py =
      (if px % 64 = x % 64 ∧ py % 32 = y % 32 then (Framebuffer.cell s.fb px py ^^ b)
       else Framebuffer.cell s.fb px py) ∧
    (s.drawPixel x y b).reg vf = if Framebuffer.cell s.fb x y = true then 1 else 0

/-- `DXYN` in closed form, for a row count the encoding admits and rows in memory: the sprite's bits
are XORed into its 8 × N cells, every other cell is as before; for N >= 1 VF is the old value of the
cell under the bottom-right pixel, for N = 0 nothing at all changes; no other register and no memory
changes (44_display.md R141; latching, order, N = 0 and the reading of "collision" are [D14], log 21). -/
def Obligations.DrawXorsTheSprite : Prop :=
  ∀ (x y : Reg) (n : Nat) (s : State), n ≤ 15 → (n = 0 ∨ s.i.toNat + n ≤ 0x1000) →
    ∃ t, exec (.drw x y n) s = .next t ∧
      (∀ r < n, ∀ c < 8,
        Framebuffer.cell t.fb ((s.reg x).toNat + c) ((s.reg y).toNat + r) =
          (Framebuffer.cell s.fb ((s.reg x).toNat + c) ((s.reg y).toNat + r) ^^
            (Memory.read s.mem (s.i.toNat + r)).getLsbD (7 - c))) ∧
      (∀ px py, (∀ r < n, ∀ c < 8,
          ¬ (px % 64 = ((s.reg x).toNat + c) % 64 ∧ py % 32 = ((s.reg y).toNat + r) % 32)) →
        Framebuffer.cell t.fb px py = Framebuffer.cell s.fb px py) ∧
      (1 ≤ n → t.reg vf =
        if Framebuffer.cell s.fb ((s.reg x).toNat + 7) ((s.reg y).toNat + n - 1) = true then 1 else 0) ∧
      (n = 0 → t = s) ∧
      (∀ r, r ≠ vf → t.reg r = s.reg r) ∧ SameMemory s t ∧ t = { s with fb := t.fb, v := t.v }

/-- Two identical draws restore the framebuffer: the second runs in any state `t'` with the first's
framebuffer, the same I, memory and position; VF is then the bottom-right cell's value before the
first draw XOR the sprite's last bit (44_display.md R141; 90_conflicts.md C2, C4; [D14], log 21). -/
def Obligations.DrawingTwiceRestoresTheFramebuffer : Prop :=
  ∀ (x y : Reg) (n : Nat) (s : State), 1 ≤ n → n ≤ 15 → s.i.toNat + n ≤ 0x1000 →
    ∃ t, exec (.drw x y n) s = .next t ∧
      ∀ t' : State, t'.fb = t.fb → t'.i = s.i → t'.mem = s.mem →
        t'.reg x = s.reg x → t'.reg y = s.reg y →
        ∃ u, exec (.drw x y n) t' = .next u ∧ u.fb = s.fb ∧
          u.reg vf =
            if (Framebuffer.cell s.fb ((s.reg x).toNat + 7) ((s.reg y).toNat + n - 1) ^^
              (Memory.read s.mem (s.i.toNat + n - 1)).getLsbD 0) = true then 1 else 0

/-! ### Keypad and timers -/

/-- `EX9E` and `EXA1`: with VX naming a line, IP advances by an extra 2 exactly when that line of the
latch is down, or not down, and nothing else changes; with VX above 15, KeyIndexFault(VX) and nothing
else (45_keypad_timers.md R150, R151 [D8], log 16; [D13], log 20). -/
def Obligations.KeySkipsTestTheLatch : Prop :=
  ∀ (x : Reg) (s : State),
    ((s.reg x).toNat ≤ 15 →
      exec (.skp x) s = .next { s with
        ip := if s.k.getLsbD (s.reg x).toNat = true then s.ip + 2 else s.ip } ∧
      exec (.sknp x) s = .next { s with
        ip := if s.k.getLsbD (s.reg x).toNat = true then s.ip else s.ip + 2 }) ∧
    (15 < (s.reg x).toNat →
      exec (.skp x) s = .next { s with
        halt := true, fault := some ⟨.keyIndexFault, BitVec.ofNat 32 (s.reg x).toNat⟩ } ∧
      exec (.sknp x) s = .next { s with
        halt := true, fault := some ⟨.keyIndexFault, BitVec.ofNat 32 (s.reg x).toNat⟩ })

/-- `FX0A`: with a line down in the latch it completes at once, V[X] the lowest line's number; with
none the machine enters the wait for X; nothing else changes (45_keypad_timers.md R152, R156 [D15],
log 22; [D13], log 20). -/
def Obligations.KeyWaitCompletesOrWaits : Prop :=
  ∀ (x : Reg) (s : State),
    (s.k ≠ 0 → ∃ t j, exec (.ldVxK x) s = .next t ∧ LowestLine s.k j ∧ (t.reg x).toNat = j.val ∧
      (∀ r, r ≠ x → t.reg r = s.reg r) ∧ SameMemory s t ∧ t = { s with v := t.v }) ∧
    (s.k = 0 → exec (.ldVxK x) s = .next { s with wait := true, wx := x })

/-- `FX07`, `FX15`, `FX18`: V[X] := DT with DT unchanged; DT := V[X] with DIV unchanged; ST := V[X];
no VF side effect, no fault (45_keypad_timers.md R153, R154, R155; that `FX15` leaves DIV alone is
R154's own inference from 60_exceptions.md R177, whose divider is the decision [D19], log 13, DESIGN
CHOICE). -/
def Obligations.TimerRegisterMoves : Prop :=
  ∀ (x : Reg) (s : State),
    (∃ t, exec (.ldVxDt x) s = .next t ∧ t.reg x = s.dt ∧ t.dt = s.dt ∧
      (x ≠ vf → t.reg vf = s.reg vf) ∧ t.halt = s.halt) ∧
    (∃ t, exec (.ldDtVx x) s = .next t ∧ t.dt = s.reg x ∧ t.div = s.div ∧ t.v = s.v ∧ t.halt = s.halt) ∧
    (∃ t, exec (.ldStVx x) s = .next t ∧ t.st = s.reg x ∧ t.v = s.v ∧ t.halt = s.halt)

/-- What the jumps, the immediate skips, the address-register and timer writes and the clear leave
unchanged: each changes only the element named, every register and every byte of memory stays
(00_scope.md R8 [D13], log 20). -/
def Obligations.FrameOfSingleElementWrites : Prop :=
  ∀ (nnn : Addr12) (x : Reg) (nn : Byte) (i : Instr) (s t : State), exec i s = .next t →
    (i ∈ [.jp nnn, .jpV0 nnn, .seImm x nn, .sneImm x nn] → SameMemory s t ∧ t = { s with ip := t.ip }) ∧
    (i ∈ [.ldI nnn, .addI x, .ldF x] → SameMemory s t ∧ t = { s with i := t.i }) ∧
    (i = .ldDtVx x → SameMemory s t ∧ t = { s with dt := t.dt }) ∧
    (i = .ldStVx x → SameMemory s t ∧ t = { s with st := t.st }) ∧
    (i = .cls → SameMemory s t ∧ t = { s with fb := t.fb })

/-- The timer primitive: one advance, the clamp at zero without auto-reset, and with auto-reset the
period of `start + 1` advances through start, ..., 1, 0 (60_exceptions.md R174). -/
def Obligations.AdvanceClampsOrReloads : Prop :=
  ∀ (c start n : Nat) (auto : Bool),
    (0 < c → advance c start auto = c - 1) ∧
    advance 0 start true = start ∧
    (fun a => advance a start false)^[n] c = c - n ∧
    (fun a => advance a start true)^[n] start = start - n % (start + 1)

/-- TimerStep, step 4 of a completed cycle, iterated any number of times with no instruction between,
from any phase of the divider: DT and ST count down once per ten timer steps and clamp at zero, DIV
counts modulo 10, PACER advances each time, and nothing but the four timer elements moves
(60_exceptions.md R175, R176, R177; the divider is the decision [D19], log 13, DESIGN CHOICE). -/
def Obligations.TimersCountTenthCycles : Prop :=
  ∀ (m : Nat) (s t : State), s.div < 10 → State.timerStep^[m] s = t →
    t.dt.toNat = s.dt.toNat - (s.div + m) / 10 ∧
    t.st.toNat = s.st.toNat - (s.div + m) / 10 ∧
    t.div = (s.div + m) % 10 ∧
    t.pacer = (fun a => advance a s.params.pacerStart true)^[m] s.pacer ∧
    t = { s with dt := t.dt, st := t.st, div := t.div, pacer := t.pacer }
end

