-- ==== Sys2Proof/Laws/Memory.lean ====
section
/-! SUPPORT. MEM: a read after a write, and that every operation keeps the canonical form. -/

namespace Sys2Proof.Machine

theorem Memory.read_cons (a : Nat) (x : Byte) (rest : Memory) (c : Nat)
    (hr : Memory.read rest a = Memory.background a) :
    Memory.read (Memory.cons a x rest) c = if a = c then x else Memory.read rest c := by
  unfold Memory.cons
  by_cases hx : x = Memory.background a
  · rw [if_pos hx]
    by_cases hc : a = c
    · subst hc; simp [hr, hx]
    · simp [hc]
  · rw [if_neg hx]; rfl

/-- Below the first listed address every byte reads as the background. -/
theorem Memory.read_below : ∀ (m : Memory) (lo c : Nat), Memory.wfFrom lo m = true → c < lo →
    Memory.read m c = Memory.background c
  | [], _, _, _, _ => rfl
  | (b, y) :: rest, lo, c, h, hc => by
    simp only [Memory.wfFrom, Bool.and_eq_true, decide_eq_true_eq] at h
    have hb : b ≠ c := by omega
    simp only [Memory.read, if_neg hb]
    exact Memory.read_below rest (b + 1) c h.2 (by omega)

theorem Memory.wfFrom_mono : ∀ (m : Memory) (lo lo' : Nat), lo' ≤ lo →
    Memory.wfFrom lo m = true → Memory.wfFrom lo' m = true
  | [], _, _, _, _ => rfl
  | (b, y) :: rest, lo, lo', hl, h => by
    simp only [Memory.wfFrom, Bool.and_eq_true, decide_eq_true_eq] at h ⊢
    exact ⟨⟨⟨by omega, h.1.1.2⟩, h.1.2⟩, h.2⟩

theorem Memory.cons_wf (a lo : Nat) (x : Byte) (rest : Memory) (hlo : lo ≤ a)
    (ha : a < Config.memSize) (h : Memory.wfFrom (a + 1) rest = true) :
    Memory.wfFrom lo (Memory.cons a x rest) = true := by
  unfold Memory.cons
  split
  · exact Memory.wfFrom_mono rest (a + 1) lo (by omega) h
  · rename_i hx
    simp [Memory.wfFrom, hlo, ha, h, hx]

theorem Memory.write_wfFrom : ∀ (m : Memory) (lo a : Nat) (x : Byte), Memory.wfFrom lo m = true →
    lo ≤ a → a < Config.memSize → Memory.wfFrom lo (Memory.write m a x) = true
  | [], lo, a, x, _, hlo, ha => Memory.cons_wf a lo x [] hlo ha rfl
  | (b, y) :: rest, lo, a, x, h, hlo, ha => by
    have h' := h
    simp only [Memory.wfFrom, Bool.and_eq_true, decide_eq_true_eq] at h
    unfold Memory.write
    split
    · refine Memory.cons_wf a lo x _ hlo ha ?_
      simp only [Memory.wfFrom, Bool.and_eq_true, decide_eq_true_eq]
      exact ⟨⟨⟨by omega, h.1.1.2⟩, h.1.2⟩, h.2⟩
    · split
      · rename_i hab; subst hab
        exact Memory.cons_wf a lo x rest hlo ha h.2
      · simp only [Memory.wfFrom, Bool.and_eq_true, decide_eq_true_eq]
        exact ⟨h.1, Memory.write_wfFrom rest (b + 1) a x h.2 (by omega) ha⟩

/-- Writing one byte keeps the canonical form. -/
theorem Memory.write_wf (m : Memory) (a : Nat) (x : Byte) (h : Memory.wf m = true)
    (ha : a < Config.memSize) : Memory.wf (Memory.write m a x) = true :=
  Memory.write_wfFrom m 0 a x h (Nat.zero_le a) ha

/-- Writing a block keeps the canonical form. -/
theorem Memory.writeBlock_wf : ∀ (bytes : List Byte) (m : Memory) (a : Nat), Memory.wf m = true →
    inMemory a bytes.length = true → Memory.wf (Memory.writeBlock m a bytes) = true
  | [], _, _, h, _ => h
  | x :: xs, m, a, h, hin => by
    simp only [inMemory, Bool.or_eq_true, decide_eq_true_eq, List.length_cons] at hin
    unfold Memory.writeBlock
    refine Memory.writeBlock_wf xs _ (a + 1) (Memory.write_wf m a x h (by omega)) ?_
    simp only [inMemory, Bool.or_eq_true, decide_eq_true_eq]; omega

theorem Memory.read_write_from : ∀ (m : Memory) (lo a c : Nat) (x : Byte),
    Memory.wfFrom lo m = true → Memory.read (Memory.write m a x) c = if a = c then x else Memory.read m c
  | [], _, a, c, x, _ => Memory.read_cons a x [] c rfl
  | (b, y) :: rest, lo, a, c, x, h => by
    have h' := h
    simp only [Memory.wfFrom, Bool.and_eq_true, decide_eq_true_eq] at h
    unfold Memory.write
    split
    · rename_i hab
      rw [Memory.read_cons]
      refine Memory.read_below _ b a ?_ hab
      exact Memory.wfFrom_mono _ b b le_rfl (by
        simp only [Memory.wfFrom, Bool.and_eq_true, decide_eq_true_eq]
        exact ⟨⟨⟨le_rfl, h.1.1.2⟩, h.1.2⟩, h.2⟩)
    · split
      · rename_i hab; subst hab
        rw [Memory.read_cons _ _ _ _ (Memory.read_below rest (a + 1) a h.2 (by omega))]
        by_cases hc : a = c <;> simp [Memory.read, hc]
      · rename_i h1 h2
        simp only [Memory.read]
        rw [Memory.read_write_from rest (b + 1) a c x h.2]
        by_cases hb : b = c
        · subst hb; simp; omega
        · simp [hb]

/-- A read after a write gives the byte written there, and leaves every other address alone. -/
theorem Memory.read_write (m : Memory) (a c : Nat) (x : Byte) (h : Memory.wf m = true) :
    Memory.read (Memory.write m a x) c = if a = c then x else Memory.read m c :=
  Memory.read_write_from m 0 a c x h

theorem Memory.read_writeBlock : ∀ (bytes : List Byte) (m : Memory) (a c : Nat),
    Memory.wf m = true → inMemory a bytes.length = true →
    Memory.read (Memory.writeBlock m a bytes) c =
      if a ≤ c ∧ c < a + bytes.length then bytes.getD (c - a) 0 else Memory.read m c
  | [], m, a, c, _, _ => by
    rw [if_neg (by simp)]; rfl
  | x :: xs, m, a, c, h, hin => by
    have hin' := hin
    simp only [inMemory, Bool.or_eq_true, decide_eq_true_eq, List.length_cons] at hin
    unfold Memory.writeBlock
    rw [Memory.read_writeBlock xs _ (a + 1) c (Memory.write_wf m a x h (by omega))
      (by simp only [inMemory, Bool.or_eq_true, decide_eq_true_eq]; omega), Memory.read_write m a c x h]
    simp only [List.length_cons]
    by_cases h1 : a + 1 ≤ c ∧ c < a + 1 + xs.length
    · have hk : c - a = (c - (a + 1)) + 1 := by omega
      rw [if_pos h1, if_pos (by omega), hk, List.getD_cons_succ]
    · rw [if_neg h1]
      by_cases h2 : a = c
      · subst h2; simp
      · rw [if_neg h2, if_neg (by omega)]

@[simp] theorem Memory.readBlock_length : ∀ (n : Nat) (m : Memory) (a : Nat),
    (Memory.readBlock m a n).length = n
  | 0, _, _ => rfl
  | n + 1, m, a => by simp [Memory.readBlock, Memory.readBlock_length n]

theorem Memory.readBlock_getElem : ∀ (n : Nat) (m : Memory) (a k : Nat)
    (h : k < (Memory.readBlock m a n).length), (Memory.readBlock m a n)[k] = Memory.read m (a + k)
  | 0, _, _, _, h => absurd h (by simp)
  | n + 1, m, a, 0, _ => rfl
  | n + 1, m, a, k + 1, h => by
    simp only [Memory.readBlock, List.getElem_cons_succ]
    rw [Memory.readBlock_getElem n m (a + 1) k]
    congr 1; omega

/-- Memories that read the same give the same blocks. -/
theorem Memory.readBlock_congr : ∀ (n : Nat) (m m' : Memory) (a : Nat),
    (∀ k < n, Memory.read m (a + k) = Memory.read m' (a + k)) →
    Memory.readBlock m a n = Memory.readBlock m' a n
  | 0, _, _, _, _ => rfl
  | n + 1, m, m', a, h => by
    unfold Memory.readBlock
    congr 1
    · exact h 0 (by omega)
    · refine Memory.readBlock_congr n m m' (a + 1) fun k hk => ?_
      have := h (k + 1) (by omega)
      rwa [show a + 1 + k = a + (k + 1) by omega]

/-- A block read back where it was written is that block. -/
theorem Memory.readBlock_writeBlock (bytes : List Byte) (m : Memory) (a : Nat)
    (h : Memory.wf m = true) (hin : inMemory a bytes.length = true) :
    Memory.readBlock (Memory.writeBlock m a bytes) a bytes.length = bytes := by
  refine List.ext_getElem (by simp) fun k h1 h2 => ?_
  rw [Memory.readBlock_getElem, Memory.read_writeBlock bytes m a _ h hin, if_pos (by omega)]
  simp [List.getD_eq_getElem?_getD, h2]

theorem Memory.ofBytes_wfFrom : ∀ (bytes : List Byte) (a lo : Nat), lo ≤ a →
    a + bytes.length ≤ Config.memSize → Memory.wfFrom lo (Memory.ofBytes a bytes) = true
  | [], _, _, _, _ => rfl
  | x :: xs, a, lo, hlo, h => by
    simp only [List.length_cons] at h
    exact Memory.cons_wf a lo x _ hlo (by omega) (Memory.ofBytes_wfFrom xs (a + 1) (a + 1) le_rfl (by omega))

theorem Memory.read_ofBytes : ∀ (bytes : List Byte) (a c : Nat), a + bytes.length ≤ Config.memSize →
    Memory.read (Memory.ofBytes a bytes) c =
      if a ≤ c ∧ c < a + bytes.length then bytes.getD (c - a) 0 else Memory.background c
  | [], a, c, _ => by rw [if_neg (by simp)]; rfl
  | x :: xs, a, c, h => by
    simp only [List.length_cons] at h ⊢
    unfold Memory.ofBytes
    rw [Memory.read_cons]
    · rw [Memory.read_ofBytes xs (a + 1) c (by omega)]
      by_cases h1 : a + 1 ≤ c ∧ c < a + 1 + xs.length
      · have hk : c - a = (c - (a + 1)) + 1 := by omega
        rw [if_neg (by omega), if_pos h1, if_pos (by omega), hk, List.getD_cons_succ]
      · rw [if_neg h1]
        by_cases h2 : a = c
        · subst h2; simp
        · rw [if_neg h2, if_neg (by omega)]
    · exact Memory.read_below _ (a + 1) a
        (Memory.ofBytes_wfFrom xs (a + 1) (a + 1) le_rfl (by omega)) (by omega)

/-- Canonical memories that read the same at every address are the same data. -/
theorem Memory.ext_of_read : ∀ (m m' : Memory) (lo : Nat), Memory.wfFrom lo m = true →
    Memory.wfFrom lo m' = true → (∀ a, Memory.read m a = Memory.read m' a) → m = m'
  | [], [], _, _, _, _ => rfl
  | [], (b, y) :: rest, lo, _, h, he => by
    simp only [Memory.wfFrom, Bool.and_eq_true, bne_iff_ne, ne_eq] at h
    have := he b
    simp only [Memory.read, if_true] at this
    exact absurd this.symm h.1.2
  | (b, y) :: rest, [], lo, h, _, he => by
    simp only [Memory.wfFrom, Bool.and_eq_true, bne_iff_ne, ne_eq] at h
    have := he b
    simp only [Memory.read, if_true] at this
    exact absurd this h.1.2
  | (b, y) :: rest, (b', y') :: rest', lo, h, h', he => by
    simp only [Memory.wfFrom, Bool.and_eq_true, decide_eq_true_eq, bne_iff_ne, ne_eq] at h h'
    have hbb : b = b' := by
      rcases Nat.lt_trichotomy b b' with hlt | heq | hgt
      · have h1 := he b
        simp only [Memory.read, if_true, if_neg (show b' ≠ b by omega)] at h1
        rw [Memory.read_below rest' (b' + 1) b h'.2 (by omega)] at h1
        exact absurd h1 h.1.2
      · exact heq
      · have h1 := he b'
        simp only [Memory.read, if_true, if_neg (show b ≠ b' by omega)] at h1
        rw [Memory.read_below rest (b + 1) b' h.2 (by omega)] at h1
        exact absurd h1.symm h'.1.2
    subst hbb
    have hy : y = y' := by have := he b; simpa [Memory.read] using this
    subst hy
    have hrest : rest = rest' := by
      refine Memory.ext_of_read rest rest' (b + 1) h.2 h'.2 fun a => ?_
      by_cases hab : b = a
      · subst hab
        rw [Memory.read_below rest (b + 1) b h.2 (by omega), Memory.read_below rest' (b + 1) b h'.2 (by omega)]
      · have := he a; simpa [Memory.read, hab] using this
    rw [hrest]

end Sys2Proof.Machine
end

