-- ==== Sys2Proof/Laws/Boot.lean ====
section
/-! SUPPORT. Reset with an image: the bytes laid into MEM, and that MEM comes out canonical. -/

namespace Sys2Proof.Machine

theorem imageFits_iff {image : List Byte} : imageFits image = true ↔ image.length ≤ 3584 := by
  rw [imageFits, decide_eq_true_eq]; rfl

theorem not_imageFits_iff {image : List Byte} : imageFits image = false ↔ 3584 < image.length := by
  rw [← Bool.not_eq_true, imageFits_iff, Nat.not_le]

/-- With a valid image the bytes fill MEM exactly. -/
theorem resetBytes_length (font : Vector Byte 80) (fill : Byte) (image : List Byte)
    (h : image.length ≤ 3584) : (resetBytes font fill image).length = 4096 := by
  have hp : Config.progMax = 3584 := rfl
  have hq : Config.progBase - Config.fontSize = 432 := rfl
  simp only [resetBytes, List.length_append, List.length_replicate, Vector.length_toList, hp, hq]
  omega

theorem boot_fits {image : List Byte} (p : Params) (font : Vector Byte 80) (fill : Byte)
    (h : imageFits image = true) : boot p font fill image =
      { State.reset with
        params := p, pacer := p.pacerStart, mem := Memory.ofBytes 0 (resetBytes font fill image) } := by
  simp only [boot, h, if_true]

theorem boot_oversized {image : List Byte} (p : Params) (font : Vector Byte 80) (fill : Byte)
    (h : imageFits image = false) : boot p font fill image =
      { State.reset with
        params := p
        pacer := p.pacerStart
        mem := Memory.ofBytes 0 (resetBytes font fill [])
        halt := true
        fault := some ⟨.invalidLoad, loadLength image⟩ } := by
  simp only [boot, h, Bool.false_eq_true, if_false]

/-- The memory of a valid reset is canonical. -/
theorem resetMemory_wf (font : Vector Byte 80) (fill : Byte) (image : List Byte)
    (h : image.length ≤ 3584) : Memory.wf (Memory.ofBytes 0 (resetBytes font fill image)) = true :=
  Memory.ofBytes_wfFrom _ 0 0 le_rfl (by rw [resetBytes_length font fill image h]; decide)

/-- Bytes that memory reads as anyway leave nothing listed. -/
theorem Memory.ofBytes_background : ∀ (bytes : List Byte) (a : Nat),
    (∀ k (h : k < bytes.length), bytes[k] = Memory.background (a + k)) → Memory.ofBytes a bytes = []
  | [], _, _ => rfl
  | x :: xs, a, h => by
    have h0 : x = Memory.background a := h 0 (by simp)
    have hs := Memory.ofBytes_background xs (a + 1) fun k hk => by
      rw [show a + 1 + k = a + (k + 1) by omega]
      exact h (k + 1) (by simpa using hk)
    rw [Memory.ofBytes, hs, Memory.cons, if_pos h0]

/-- `State.reset` is what `boot` builds with the default parameters and no image. -/
theorem boot_default : boot defaultParams fontVector memFill [] = State.reset := by
  have hm : Memory.ofBytes 0 (resetBytes fontVector memFill []) = [] := by
    refine Memory.ofBytes_background _ 0 fun k hk => ?_
    have hf : fontVector.toList.length = 80 := by simp
    obtain ⟨m, hm⟩ : ∃ m, resetBytes fontVector memFill [] = fontVector.toList ++ List.replicate m memFill :=
      ⟨(Config.progBase - Config.fontSize) + (Config.progMax - ([] : List Byte).length), by
        unfold resetBytes
        rw [List.append_nil, List.append_assoc, List.replicate_append_replicate]⟩
    simp only [hm, Nat.zero_add, Memory.background]
    by_cases h : k < 80
    · rw [List.getElem_append_left (by omega), if_pos (by exact h)]
      simp [List.getD_eq_getElem?_getD, fontVector, show k < defaultFont.length from h]
    · rw [List.getElem_append_right (by omega), if_neg (by exact h), List.getElem_replicate]
  rw [boot_fits _ _ _ rfl, hm]; rfl

end Sys2Proof.Machine
end

