-- ==== Sys2Proof/Laws/State.lean ====
section
/-! SUPPORT. One lemma per field per update of the state, each true by rfl, so that no later proof
unfolds a record update. -/

namespace Sys2Proof.Machine

/-! ### setReg -/

@[simp] theorem State.setReg_mem (s : State) (r : Reg) (b : Byte) : (s.setReg r b).mem = s.mem := rfl
@[simp] theorem State.setReg_v (s : State) (r : Reg) (b : Byte) : (s.setReg r b).v = s.v.set r.val b := rfl
@[simp] theorem State.setReg_i (s : State) (r : Reg) (b : Byte) : (s.setReg r b).i = s.i := rfl
@[simp] theorem State.setReg_ip (s : State) (r : Reg) (b : Byte) : (s.setReg r b).ip = s.ip := rfl
@[simp] theorem State.setReg_sp (s : State) (r : Reg) (b : Byte) : (s.setReg r b).sp = s.sp := rfl
@[simp] theorem State.setReg_dt (s : State) (r : Reg) (b : Byte) : (s.setReg r b).dt = s.dt := rfl
@[simp] theorem State.setReg_st (s : State) (r : Reg) (b : Byte) : (s.setReg r b).st = s.st := rfl
@[simp] theorem State.setReg_pacer (s : State) (r : Reg) (b : Byte) : (s.setReg r b).pacer = s.pacer := rfl
@[simp] theorem State.setReg_div (s : State) (r : Reg) (b : Byte) : (s.setReg r b).div = s.div := rfl
@[simp] theorem State.setReg_fb (s : State) (r : Reg) (b : Byte) : (s.setReg r b).fb = s.fb := rfl
@[simp] theorem State.setReg_k (s : State) (r : Reg) (b : Byte) : (s.setReg r b).k = s.k := rfl
@[simp] theorem State.setReg_wait (s : State) (r : Reg) (b : Byte) : (s.setReg r b).wait = s.wait := rfl
@[simp] theorem State.setReg_wx (s : State) (r : Reg) (b : Byte) : (s.setReg r b).wx = s.wx := rfl
@[simp] theorem State.setReg_halt (s : State) (r : Reg) (b : Byte) : (s.setReg r b).halt = s.halt := rfl
@[simp] theorem State.setReg_fault (s : State) (r : Reg) (b : Byte) : (s.setReg r b).fault = s.fault := rfl
@[simp] theorem State.setReg_params (s : State) (r : Reg) (b : Byte) : (s.setReg r b).params = s.params := rfl
@[simp] theorem State.setReg_keyQueue (s : State) (r : Reg) (b : Byte) : (s.setReg r b).keyQueue = s.keyQueue := rfl
@[simp] theorem State.setReg_keyDraws (s : State) (r : Reg) (b : Byte) : (s.setReg r b).keyDraws = s.keyDraws := rfl
@[simp] theorem State.setReg_rndQueue (s : State) (r : Reg) (b : Byte) : (s.setReg r b).rndQueue = s.rndQueue := rfl
@[simp] theorem State.setReg_rndDraws (s : State) (r : Reg) (b : Byte) : (s.setReg r b).rndDraws = s.rndDraws := rfl

/-! ### setI -/

@[simp] theorem State.setI_mem (s : State) (a : Word) : (s.setI a).mem = s.mem := rfl
@[simp] theorem State.setI_v (s : State) (a : Word) : (s.setI a).v = s.v := rfl
@[simp] theorem State.setI_i (s : State) (a : Word) : (s.setI a).i = a := rfl
@[simp] theorem State.setI_ip (s : State) (a : Word) : (s.setI a).ip = s.ip := rfl
@[simp] theorem State.setI_sp (s : State) (a : Word) : (s.setI a).sp = s.sp := rfl
@[simp] theorem State.setI_dt (s : State) (a : Word) : (s.setI a).dt = s.dt := rfl
@[simp] theorem State.setI_st (s : State) (a : Word) : (s.setI a).st = s.st := rfl
@[simp] theorem State.setI_pacer (s : State) (a : Word) : (s.setI a).pacer = s.pacer := rfl
@[simp] theorem State.setI_div (s : State) (a : Word) : (s.setI a).div = s.div := rfl
@[simp] theorem State.setI_fb (s : State) (a : Word) : (s.setI a).fb = s.fb := rfl
@[simp] theorem State.setI_k (s : State) (a : Word) : (s.setI a).k = s.k := rfl
@[simp] theorem State.setI_wait (s : State) (a : Word) : (s.setI a).wait = s.wait := rfl
@[simp] theorem State.setI_wx (s : State) (a : Word) : (s.setI a).wx = s.wx := rfl
@[simp] theorem State.setI_halt (s : State) (a : Word) : (s.setI a).halt = s.halt := rfl
@[simp] theorem State.setI_fault (s : State) (a : Word) : (s.setI a).fault = s.fault := rfl
@[simp] theorem State.setI_params (s : State) (a : Word) : (s.setI a).params = s.params := rfl
@[simp] theorem State.setI_keyQueue (s : State) (a : Word) : (s.setI a).keyQueue = s.keyQueue := rfl
@[simp] theorem State.setI_keyDraws (s : State) (a : Word) : (s.setI a).keyDraws = s.keyDraws := rfl
@[simp] theorem State.setI_rndQueue (s : State) (a : Word) : (s.setI a).rndQueue = s.rndQueue := rfl
@[simp] theorem State.setI_rndDraws (s : State) (a : Word) : (s.setI a).rndDraws = s.rndDraws := rfl

/-! ### jump -/

@[simp] theorem State.jump_mem (s : State) (a : Word) : (s.jump a).mem = s.mem := rfl
@[simp] theorem State.jump_v (s : State) (a : Word) : (s.jump a).v = s.v := rfl
@[simp] theorem State.jump_i (s : State) (a : Word) : (s.jump a).i = s.i := rfl
@[simp] theorem State.jump_ip (s : State) (a : Word) : (s.jump a).ip = a := rfl
@[simp] theorem State.jump_sp (s : State) (a : Word) : (s.jump a).sp = s.sp := rfl
@[simp] theorem State.jump_dt (s : State) (a : Word) : (s.jump a).dt = s.dt := rfl
@[simp] theorem State.jump_st (s : State) (a : Word) : (s.jump a).st = s.st := rfl
@[simp] theorem State.jump_pacer (s : State) (a : Word) : (s.jump a).pacer = s.pacer := rfl
@[simp] theorem State.jump_div (s : State) (a : Word) : (s.jump a).div = s.div := rfl
@[simp] theorem State.jump_fb (s : State) (a : Word) : (s.jump a).fb = s.fb := rfl
@[simp] theorem State.jump_k (s : State) (a : Word) : (s.jump a).k = s.k := rfl
@[simp] theorem State.jump_wait (s : State) (a : Word) : (s.jump a).wait = s.wait := rfl
@[simp] theorem State.jump_wx (s : State) (a : Word) : (s.jump a).wx = s.wx := rfl
@[simp] theorem State.jump_halt (s : State) (a : Word) : (s.jump a).halt = s.halt := rfl
@[simp] theorem State.jump_fault (s : State) (a : Word) : (s.jump a).fault = s.fault := rfl
@[simp] theorem State.jump_params (s : State) (a : Word) : (s.jump a).params = s.params := rfl
@[simp] theorem State.jump_keyQueue (s : State) (a : Word) : (s.jump a).keyQueue = s.keyQueue := rfl
@[simp] theorem State.jump_keyDraws (s : State) (a : Word) : (s.jump a).keyDraws = s.keyDraws := rfl
@[simp] theorem State.jump_rndQueue (s : State) (a : Word) : (s.jump a).rndQueue = s.rndQueue := rfl
@[simp] theorem State.jump_rndDraws (s : State) (a : Word) : (s.jump a).rndDraws = s.rndDraws := rfl

/-! ### raise -/

@[simp] theorem State.raise_mem (s : State) (f : FaultRecord) : (s.raise f).mem = s.mem := rfl
@[simp] theorem State.raise_v (s : State) (f : FaultRecord) : (s.raise f).v = s.v := rfl
@[simp] theorem State.raise_i (s : State) (f : FaultRecord) : (s.raise f).i = s.i := rfl
@[simp] theorem State.raise_ip (s : State) (f : FaultRecord) : (s.raise f).ip = s.ip := rfl
@[simp] theorem State.raise_sp (s : State) (f : FaultRecord) : (s.raise f).sp = s.sp := rfl
@[simp] theorem State.raise_dt (s : State) (f : FaultRecord) : (s.raise f).dt = s.dt := rfl
@[simp] theorem State.raise_st (s : State) (f : FaultRecord) : (s.raise f).st = s.st := rfl
@[simp] theorem State.raise_pacer (s : State) (f : FaultRecord) : (s.raise f).pacer = s.pacer := rfl
@[simp] theorem State.raise_div (s : State) (f : FaultRecord) : (s.raise f).div = s.div := rfl
@[simp] theorem State.raise_fb (s : State) (f : FaultRecord) : (s.raise f).fb = s.fb := rfl
@[simp] theorem State.raise_k (s : State) (f : FaultRecord) : (s.raise f).k = s.k := rfl
@[simp] theorem State.raise_wait (s : State) (f : FaultRecord) : (s.raise f).wait = s.wait := rfl
@[simp] theorem State.raise_wx (s : State) (f : FaultRecord) : (s.raise f).wx = s.wx := rfl
@[simp] theorem State.raise_halt (s : State) (f : FaultRecord) : (s.raise f).halt = true := rfl
@[simp] theorem State.raise_fault (s : State) (f : FaultRecord) : (s.raise f).fault = some f := rfl
@[simp] theorem State.raise_params (s : State) (f : FaultRecord) : (s.raise f).params = s.params := rfl
@[simp] theorem State.raise_keyQueue (s : State) (f : FaultRecord) : (s.raise f).keyQueue = s.keyQueue := rfl
@[simp] theorem State.raise_keyDraws (s : State) (f : FaultRecord) : (s.raise f).keyDraws = s.keyDraws := rfl
@[simp] theorem State.raise_rndQueue (s : State) (f : FaultRecord) : (s.raise f).rndQueue = s.rndQueue := rfl
@[simp] theorem State.raise_rndDraws (s : State) (f : FaultRecord) : (s.raise f).rndDraws = s.rndDraws := rfl

/-! ### refreshKeys -/

@[simp] theorem State.refreshKeys_mem (s : State) : (s.refreshKeys).mem = s.mem := rfl
@[simp] theorem State.refreshKeys_v (s : State) : (s.refreshKeys).v = s.v := rfl
@[simp] theorem State.refreshKeys_i (s : State) : (s.refreshKeys).i = s.i := rfl
@[simp] theorem State.refreshKeys_ip (s : State) : (s.refreshKeys).ip = s.ip := rfl
@[simp] theorem State.refreshKeys_sp (s : State) : (s.refreshKeys).sp = s.sp := rfl
@[simp] theorem State.refreshKeys_dt (s : State) : (s.refreshKeys).dt = s.dt := rfl
@[simp] theorem State.refreshKeys_st (s : State) : (s.refreshKeys).st = s.st := rfl
@[simp] theorem State.refreshKeys_pacer (s : State) : (s.refreshKeys).pacer = s.pacer := rfl
@[simp] theorem State.refreshKeys_div (s : State) : (s.refreshKeys).div = s.div := rfl
@[simp] theorem State.refreshKeys_fb (s : State) : (s.refreshKeys).fb = s.fb := rfl
@[simp] theorem State.refreshKeys_k (s : State) : (s.refreshKeys).k = s.keySample := rfl
@[simp] theorem State.refreshKeys_wait (s : State) : (s.refreshKeys).wait = s.wait := rfl
@[simp] theorem State.refreshKeys_wx (s : State) : (s.refreshKeys).wx = s.wx := rfl
@[simp] theorem State.refreshKeys_halt (s : State) : (s.refreshKeys).halt = s.halt := rfl
@[simp] theorem State.refreshKeys_fault (s : State) : (s.refreshKeys).fault = s.fault := rfl
@[simp] theorem State.refreshKeys_params (s : State) : (s.refreshKeys).params = s.params := rfl
@[simp] theorem State.refreshKeys_keyQueue (s : State) : (s.refreshKeys).keyQueue = s.keyQueue.tail := rfl
@[simp] theorem State.refreshKeys_keyDraws (s : State) : (s.refreshKeys).keyDraws = s.keyDraws + 1 := rfl
@[simp] theorem State.refreshKeys_rndQueue (s : State) : (s.refreshKeys).rndQueue = s.rndQueue := rfl
@[simp] theorem State.refreshKeys_rndDraws (s : State) : (s.refreshKeys).rndDraws = s.rndDraws := rfl

/-! ### dropRandom -/

@[simp] theorem State.dropRandom_mem (s : State) : (s.dropRandom).mem = s.mem := rfl
@[simp] theorem State.dropRandom_v (s : State) : (s.dropRandom).v = s.v := rfl
@[simp] theorem State.dropRandom_i (s : State) : (s.dropRandom).i = s.i := rfl
@[simp] theorem State.dropRandom_ip (s : State) : (s.dropRandom).ip = s.ip := rfl
@[simp] theorem State.dropRandom_sp (s : State) : (s.dropRandom).sp = s.sp := rfl
@[simp] theorem State.dropRandom_dt (s : State) : (s.dropRandom).dt = s.dt := rfl
@[simp] theorem State.dropRandom_st (s : State) : (s.dropRandom).st = s.st := rfl
@[simp] theorem State.dropRandom_pacer (s : State) : (s.dropRandom).pacer = s.pacer := rfl
@[simp] theorem State.dropRandom_div (s : State) : (s.dropRandom).div = s.div := rfl
@[simp] theorem State.dropRandom_fb (s : State) : (s.dropRandom).fb = s.fb := rfl
@[simp] theorem State.dropRandom_k (s : State) : (s.dropRandom).k = s.k := rfl
@[simp] theorem State.dropRandom_wait (s : State) : (s.dropRandom).wait = s.wait := rfl
@[simp] theorem State.dropRandom_wx (s : State) : (s.dropRandom).wx = s.wx := rfl
@[simp] theorem State.dropRandom_halt (s : State) : (s.dropRandom).halt = s.halt := rfl
@[simp] theorem State.dropRandom_fault (s : State) : (s.dropRandom).fault = s.fault := rfl
@[simp] theorem State.dropRandom_params (s : State) : (s.dropRandom).params = s.params := rfl
@[simp] theorem State.dropRandom_keyQueue (s : State) : (s.dropRandom).keyQueue = s.keyQueue := rfl
@[simp] theorem State.dropRandom_keyDraws (s : State) : (s.dropRandom).keyDraws = s.keyDraws := rfl
@[simp] theorem State.dropRandom_rndQueue (s : State) : (s.dropRandom).rndQueue = s.rndQueue.tail := rfl
@[simp] theorem State.dropRandom_rndDraws (s : State) : (s.dropRandom).rndDraws = s.rndDraws + 1 := rfl

/-! ### drawPixel -/

@[simp] theorem State.drawPixel_mem (s : State) (x y : Nat) (b : Bool) : (s.drawPixel x y b).mem = s.mem := rfl
@[simp] theorem State.drawPixel_v (s : State) (x y : Nat) (b : Bool) : (s.drawPixel x y b).v = s.v.set vf.val (flagByte (Framebuffer.cell s.fb x y)) := rfl
@[simp] theorem State.drawPixel_i (s : State) (x y : Nat) (b : Bool) : (s.drawPixel x y b).i = s.i := rfl
@[simp] theorem State.drawPixel_ip (s : State) (x y : Nat) (b : Bool) : (s.drawPixel x y b).ip = s.ip := rfl
@[simp] theorem State.drawPixel_sp (s : State) (x y : Nat) (b : Bool) : (s.drawPixel x y b).sp = s.sp := rfl
@[simp] theorem State.drawPixel_dt (s : State) (x y : Nat) (b : Bool) : (s.drawPixel x y b).dt = s.dt := rfl
@[simp] theorem State.drawPixel_st (s : State) (x y : Nat) (b : Bool) : (s.drawPixel x y b).st = s.st := rfl
@[simp] theorem State.drawPixel_pacer (s : State) (x y : Nat) (b : Bool) : (s.drawPixel x y b).pacer = s.pacer := rfl
@[simp] theorem State.drawPixel_div (s : State) (x y : Nat) (b : Bool) : (s.drawPixel x y b).div = s.div := rfl
@[simp] theorem State.drawPixel_fb (s : State) (x y : Nat) (b : Bool) : (s.drawPixel x y b).fb = Framebuffer.xorPixel s.fb x y b := rfl
@[simp] theorem State.drawPixel_k (s : State) (x y : Nat) (b : Bool) : (s.drawPixel x y b).k = s.k := rfl
@[simp] theorem State.drawPixel_wait (s : State) (x y : Nat) (b : Bool) : (s.drawPixel x y b).wait = s.wait := rfl
@[simp] theorem State.drawPixel_wx (s : State) (x y : Nat) (b : Bool) : (s.drawPixel x y b).wx = s.wx := rfl
@[simp] theorem State.drawPixel_halt (s : State) (x y : Nat) (b : Bool) : (s.drawPixel x y b).halt = s.halt := rfl
@[simp] theorem State.drawPixel_fault (s : State) (x y : Nat) (b : Bool) : (s.drawPixel x y b).fault = s.fault := rfl
@[simp] theorem State.drawPixel_params (s : State) (x y : Nat) (b : Bool) : (s.drawPixel x y b).params = s.params := rfl
@[simp] theorem State.drawPixel_keyQueue (s : State) (x y : Nat) (b : Bool) : (s.drawPixel x y b).keyQueue = s.keyQueue := rfl
@[simp] theorem State.drawPixel_keyDraws (s : State) (x y : Nat) (b : Bool) : (s.drawPixel x y b).keyDraws = s.keyDraws := rfl
@[simp] theorem State.drawPixel_rndQueue (s : State) (x y : Nat) (b : Bool) : (s.drawPixel x y b).rndQueue = s.rndQueue := rfl
@[simp] theorem State.drawPixel_rndDraws (s : State) (x y : Nat) (b : Bool) : (s.drawPixel x y b).rndDraws = s.rndDraws := rfl

/-! ### setFlagged: every field but the registers -/

@[simp] theorem State.setFlagged_mem (s : State) (x : Reg) (rf : Byte × Byte) : (s.setFlagged x rf).mem = s.mem := rfl
@[simp] theorem State.setFlagged_i (s : State) (x : Reg) (rf : Byte × Byte) : (s.setFlagged x rf).i = s.i := rfl
@[simp] theorem State.setFlagged_ip (s : State) (x : Reg) (rf : Byte × Byte) : (s.setFlagged x rf).ip = s.ip := rfl
@[simp] theorem State.setFlagged_sp (s : State) (x : Reg) (rf : Byte × Byte) : (s.setFlagged x rf).sp = s.sp := rfl
@[simp] theorem State.setFlagged_dt (s : State) (x : Reg) (rf : Byte × Byte) : (s.setFlagged x rf).dt = s.dt := rfl
@[simp] theorem State.setFlagged_st (s : State) (x : Reg) (rf : Byte × Byte) : (s.setFlagged x rf).st = s.st := rfl
@[simp] theorem State.setFlagged_pacer (s : State) (x : Reg) (rf : Byte × Byte) : (s.setFlagged x rf).pacer = s.pacer := rfl
@[simp] theorem State.setFlagged_div (s : State) (x : Reg) (rf : Byte × Byte) : (s.setFlagged x rf).div = s.div := rfl
@[simp] theorem State.setFlagged_fb (s : State) (x : Reg) (rf : Byte × Byte) : (s.setFlagged x rf).fb = s.fb := rfl
@[simp] theorem State.setFlagged_k (s : State) (x : Reg) (rf : Byte × Byte) : (s.setFlagged x rf).k = s.k := rfl
@[simp] theorem State.setFlagged_wait (s : State) (x : Reg) (rf : Byte × Byte) : (s.setFlagged x rf).wait = s.wait := rfl
@[simp] theorem State.setFlagged_wx (s : State) (x : Reg) (rf : Byte × Byte) : (s.setFlagged x rf).wx = s.wx := rfl
@[simp] theorem State.setFlagged_halt (s : State) (x : Reg) (rf : Byte × Byte) : (s.setFlagged x rf).halt = s.halt := rfl
@[simp] theorem State.setFlagged_fault (s : State) (x : Reg) (rf : Byte × Byte) : (s.setFlagged x rf).fault = s.fault := rfl
@[simp] theorem State.setFlagged_params (s : State) (x : Reg) (rf : Byte × Byte) : (s.setFlagged x rf).params = s.params := rfl
@[simp] theorem State.setFlagged_keyQueue (s : State) (x : Reg) (rf : Byte × Byte) : (s.setFlagged x rf).keyQueue = s.keyQueue := rfl
@[simp] theorem State.setFlagged_keyDraws (s : State) (x : Reg) (rf : Byte × Byte) : (s.setFlagged x rf).keyDraws = s.keyDraws := rfl
@[simp] theorem State.setFlagged_rndQueue (s : State) (x : Reg) (rf : Byte × Byte) : (s.setFlagged x rf).rndQueue = s.rndQueue := rfl
@[simp] theorem State.setFlagged_rndDraws (s : State) (x : Reg) (rf : Byte × Byte) : (s.setFlagged x rf).rndDraws = s.rndDraws := rfl

/-! ### skipIf: every field but IP -/

@[simp] theorem State.skipIf_mem (s : State) (c : Bool) : (s.skipIf c).mem = s.mem := by cases c <;> rfl
@[simp] theorem State.skipIf_v (s : State) (c : Bool) : (s.skipIf c).v = s.v := by cases c <;> rfl
@[simp] theorem State.skipIf_i (s : State) (c : Bool) : (s.skipIf c).i = s.i := by cases c <;> rfl
@[simp] theorem State.skipIf_sp (s : State) (c : Bool) : (s.skipIf c).sp = s.sp := by cases c <;> rfl
@[simp] theorem State.skipIf_dt (s : State) (c : Bool) : (s.skipIf c).dt = s.dt := by cases c <;> rfl
@[simp] theorem State.skipIf_st (s : State) (c : Bool) : (s.skipIf c).st = s.st := by cases c <;> rfl
@[simp] theorem State.skipIf_pacer (s : State) (c : Bool) : (s.skipIf c).pacer = s.pacer := by cases c <;> rfl
@[simp] theorem State.skipIf_div (s : State) (c : Bool) : (s.skipIf c).div = s.div := by cases c <;> rfl
@[simp] theorem State.skipIf_fb (s : State) (c : Bool) : (s.skipIf c).fb = s.fb := by cases c <;> rfl
@[simp] theorem State.skipIf_k (s : State) (c : Bool) : (s.skipIf c).k = s.k := by cases c <;> rfl
@[simp] theorem State.skipIf_wait (s : State) (c : Bool) : (s.skipIf c).wait = s.wait := by cases c <;> rfl
@[simp] theorem State.skipIf_wx (s : State) (c : Bool) : (s.skipIf c).wx = s.wx := by cases c <;> rfl
@[simp] theorem State.skipIf_halt (s : State) (c : Bool) : (s.skipIf c).halt = s.halt := by cases c <;> rfl
@[simp] theorem State.skipIf_fault (s : State) (c : Bool) : (s.skipIf c).fault = s.fault := by cases c <;> rfl
@[simp] theorem State.skipIf_params (s : State) (c : Bool) : (s.skipIf c).params = s.params := by cases c <;> rfl
@[simp] theorem State.skipIf_keyQueue (s : State) (c : Bool) : (s.skipIf c).keyQueue = s.keyQueue := by cases c <;> rfl
@[simp] theorem State.skipIf_keyDraws (s : State) (c : Bool) : (s.skipIf c).keyDraws = s.keyDraws := by cases c <;> rfl
@[simp] theorem State.skipIf_rndQueue (s : State) (c : Bool) : (s.skipIf c).rndQueue = s.rndQueue := by cases c <;> rfl
@[simp] theorem State.skipIf_rndDraws (s : State) (c : Bool) : (s.skipIf c).rndDraws = s.rndDraws := by cases c <;> rfl
@[simp] theorem State.skipIf_ip (s : State) (c : Bool) : (s.skipIf c).ip = if c then s.ip + 2 else s.ip := by
  cases c <;> rfl

end Sys2Proof.Machine
end

