-- ==== Sys2Proof/Laws/Ops.lean ====
section
/-! SUPPORT. What each shared operation can do, said once: registers, the memory primitives, the
call stack, register blocks, decimal digits, the keypad. -/

namespace Sys2Proof.Machine

/-! ### Registers -/

theorem State.reg_setReg (s : State) (r r' : Reg) (b : Byte) :
    (s.setReg r b).reg r' = if r' = r then b else s.reg r' := by
  simp only [State.reg, State.setReg, Vector.getElem_set, Fin.ext_iff, eq_comm]

@[simp] theorem State.reg_setReg_self (s : State) (r : Reg) (b : Byte) : (s.setReg r b).reg r = b := by
  simp [State.reg_setReg]

theorem State.reg_setReg_ne (s : State) {r r' : Reg} (b : Byte) (h : r' ≠ r) :
    (s.setReg r b).reg r' = s.reg r' := by simp [State.reg_setReg, h]

/-- The flag is written last, so it is what VF holds, also when VF is the destination (42_alu.md R122). -/
theorem State.reg_setFlagged (s : State) (x r : Reg) (rf : Byte × Byte) :
    (s.setFlagged x rf).reg r = if r = vf then rf.2 else if r = x then rf.1 else s.reg r := by
  simp only [State.setFlagged, State.reg_setReg]

/-- Two register files that agree on every register are equal. -/
theorem State.v_ext {s t : State} (h : ∀ r, t.reg r = s.reg r) : t.v = s.v :=
  Vector.ext fun k hk => h ⟨k, hk⟩

theorem State.setReg_eq (s : State) (r : Reg) (b : Byte) :
    s.setReg r b = { s with v := (s.setReg r b).v } := rfl

theorem State.setFlagged_eq (s : State) (x : Reg) (rf : Byte × Byte) :
    s.setFlagged x rf = { s with v := (s.setFlagged x rf).v } := rfl

theorem State.skipIf_eq (s : State) (c : Bool) :
    s.skipIf c = { s with ip := if c then s.ip + 2 else s.ip } := by cases c <;> rfl

/-! ### Memory -/

theorem inMemory_iff {addr n : Nat} : inMemory addr n = true ↔ n = 0 ∨ addr + n ≤ 0x1000 := by
  simp only [inMemory, Bool.or_eq_true, decide_eq_true_eq]; rfl

theorem not_inMemory_iff {addr n : Nat} : inMemory addr n = false ↔ n ≠ 0 ∧ 0x1000 < addr + n := by
  rw [← Bool.not_eq_true, inMemory_iff]; omega

theorem State.memRead_inside (s : State) {addr n : Nat} (h : inMemory addr n = true) :
    s.memRead addr n = .ok (Memory.readBlock s.mem addr n) := by simp [State.memRead, h]

theorem State.memRead_outside (s : State) {addr n : Nat} (h : inMemory addr n = false) :
    s.memRead addr n = .error (addressFault (lowestOutside addr)) := by simp [State.memRead, h]

theorem State.memWrite_inside (s : State) {addr : Nat} {bytes : List Byte}
    (h : inMemory addr bytes.length = true) :
    s.memWrite addr bytes = .ok { s with mem := Memory.writeBlock s.mem addr bytes } := by
  simp [State.memWrite, h]

theorem State.memWrite_outside (s : State) {addr : Nat} {bytes : List Byte}
    (h : inMemory addr bytes.length = false) :
    s.memWrite addr bytes = .error (addressFault (lowestOutside addr)) := by
  simp [State.memWrite, h]

/-- Everything MemWrite can do. -/
theorem State.memWrite_cases (s : State) (addr : Nat) (bytes : List Byte) :
    (inMemory addr bytes.length = true ∧
      s.memWrite addr bytes = .ok { s with mem := Memory.writeBlock s.mem addr bytes }) ∨
    (inMemory addr bytes.length = false ∧
      s.memWrite addr bytes = .error (addressFault (lowestOutside addr))) := by
  cases h : inMemory addr bytes.length
  · exact .inr ⟨rfl, s.memWrite_outside h⟩
  · exact .inl ⟨rfl, s.memWrite_inside h⟩

/-- Everything MemRead can do. -/
theorem State.memRead_cases (s : State) (addr n : Nat) :
    (inMemory addr n = true ∧ s.memRead addr n = .ok (Memory.readBlock s.mem addr n)) ∨
    (inMemory addr n = false ∧ s.memRead addr n = .error (addressFault (lowestOutside addr))) := by
  cases h : inMemory addr n
  · exact .inr ⟨rfl, s.memRead_outside h⟩
  · exact .inl ⟨rfl, s.memRead_inside h⟩

@[simp] theorem State.settle_ok (s t : State) : s.settle (.ok t) = t := rfl
@[simp] theorem State.settle_error (s : State) (f : FaultRecord) : s.settle (.error f) = s.raise f := rfl
@[simp] theorem except_map_ok {α β : Type} (g : α → β) (a : α) :
    Except.map g (.ok a : Except FaultRecord α) = .ok (g a) := rfl
@[simp] theorem except_map_error {α β : Type} (g : α → β) (f : FaultRecord) :
    Except.map g (.error f : Except FaultRecord α) = .error f := rfl

/-! ### The call stack -/

@[simp] theorem frameOf_length (order : FrameOrder) (v : Word) : (frameOf order v).length = 4 := by
  cases order <;> rfl

/-- Everything Push can do where SP is legal (41_control_flow.md R98). -/
theorem State.push_cases (s : State) (v w : Word) (h : inMemory s.sp 4 = true) :
    (s.sp = Config.stackTop ∧ s.push v w = .error (wordFault .stackOverflow w)) ∨
    (s.sp ≠ Config.stackTop ∧ s.push v w =
      .ok { s with mem := Memory.writeBlock s.mem s.sp (frameOf s.params.frameOrder v), sp := s.sp + 4 }) := by
  unfold State.push
  split
  · exact .inl ⟨‹_›, rfl⟩
  · refine .inr ⟨‹_›, ?_⟩
    rw [s.memWrite_inside (by simpa using h)]
    rfl

/-- Everything Pop can do where SP is legal (41_control_flow.md R98). -/
theorem State.pop_cases (s : State) (w : Word) (h : inMemory (s.sp - 4) 4 = true) :
    (s.sp = Config.stackBase ∧ s.pop w = .error (wordFault .stackUnderflow w)) ∨
    (s.sp ≠ Config.stackBase ∧
      frameValue s.params.frameOrder (Memory.readBlock s.mem (s.sp - 4) 4) < 0x10000 ∧
      s.pop w = .ok
        (BitVec.ofNat 16 (frameValue s.params.frameOrder (Memory.readBlock s.mem (s.sp - 4) 4)),
          { s with sp := s.sp - 4 })) ∨
    (s.sp ≠ Config.stackBase ∧
      ¬ frameValue s.params.frameOrder (Memory.readBlock s.mem (s.sp - 4) 4) < 0x10000 ∧
      s.pop w = .error (addressFault
        (frameValue s.params.frameOrder (Memory.readBlock s.mem (s.sp - 4) 4)))) := by
  unfold State.pop
  rw [show Config.frameBytes = 4 from rfl, s.memRead_inside h]
  split
  · exact .inl ⟨‹_›, rfl⟩
  · by_cases hv : frameValue s.params.frameOrder (Memory.readBlock s.mem (s.sp - 4) 4) < 0x10000
    · exact .inr (.inl ⟨‹_›, hv, if_pos hv⟩)
    · exact .inr (.inr ⟨‹_›, hv, if_neg hv⟩)

/-- A pop reads back what a push stored, in either byte order. -/
theorem frameValue_frameOf (order : FrameOrder) (v : Word) : frameValue order (frameOf order v) = v.toNat := by
  have := v.isLt
  cases order <;> simp [frameValue, frameOf, bigEndianValue] <;> omega

/-! ### Register blocks -/

@[simp] theorem State.regBlock_length (s : State) (x : Reg) : (s.regBlock x).length = x.val + 1 := by
  have := x.isLt
  simp [State.regBlock]

theorem State.regBlock_getElem (s : State) (x : Reg) (k : Nat) (h : k < (s.regBlock x).length)
    (hk : k < 16) : (s.regBlock x)[k] = s.reg ⟨k, hk⟩ := by
  simp [State.regBlock, State.reg]

/-- Loading registers changes registers only. -/
theorem State.setRegsFrom_eq : ∀ (bytes : List Byte) (s : State) (r : Nat),
    s.setRegsFrom r bytes = { s with v := (s.setRegsFrom r bytes).v }
  | [], _, _ => rfl
  | b :: bs, s, r => by
    unfold State.setRegsFrom
    rw [State.setRegsFrom_eq bs]
    split <;> rfl

theorem State.setRegsFrom_reg : ∀ (bytes : List Byte) (s : State) (r : Nat) (k : Reg),
    (s.setRegsFrom r bytes).reg k =
      if r ≤ k.val ∧ k.val < r + bytes.length then bytes.getD (k.val - r) 0 else s.reg k
  | [], s, r, k => by rw [if_neg (by simp)]; rfl
  | b :: bs, s, r, k => by
    have hk := k.isLt
    unfold State.setRegsFrom
    rw [State.setRegsFrom_reg bs, List.length_cons]
    by_cases h1 : r + 1 ≤ k.val ∧ k.val < r + 1 + bs.length
    · rw [if_pos h1, if_pos (by omega), show k.val - r = (k.val - (r + 1)) + 1 by omega,
        List.getD_cons_succ]
    · rw [if_neg h1]
      by_cases h2 : k.val = r
      · have hr : r < 16 := by omega
        have hkr : k = ⟨r, hr⟩ := Fin.ext h2
        rw [dif_pos hr, hkr, State.reg_setReg_self, if_pos (by simp)]; simp
      · rw [if_neg (by omega)]
        split
        · exact s.reg_setReg_ne b (fun h => h2 (by rw [h]))
        · rfl

@[simp] theorem decimalDigits_length (b : Byte) : (decimalDigits b).length = 3 := rfl

/-! ### The keypad -/

theorem keyLine_inside {b : Byte} (h : b.toNat < 16) : keyLine b = .ok ⟨b.toNat, h⟩ := by simp [keyLine, h]

theorem keyLine_outside {b : Byte} (h : ¬ b.toNat < 16) : keyLine b = .error (keyIndexFault b) := by
  simp [keyLine, h]

/-- The scan from line `k` ends at a line that is down with none below it, or past the lines tried. -/
theorem firstDownFrom_spec (lines : Word) : ∀ (n k : Nat),
    k ≤ firstDownFrom lines k n ∧ firstDownFrom lines k n ≤ k + n ∧
    (∀ l, k ≤ l → l < firstDownFrom lines k n → lines.getLsbD l = false) ∧
    (firstDownFrom lines k n < k + n → lines.getLsbD (firstDownFrom lines k n) = true)
  | 0, k => by simp [firstDownFrom]; intro l; omega
  | n + 1, k => by
    unfold firstDownFrom
    split
    · refine ⟨le_rfl, by omega, fun l h1 h2 => absurd h2 (by omega), fun _ => ‹_›⟩
    · rename_i hk
      obtain ⟨h1, h2, h3, h4⟩ := firstDownFrom_spec lines n (k + 1)
      refine ⟨by omega, by omega, fun l hl hlt => ?_, fun h => h4 (by omega)⟩
      by_cases hlk : l = k
      · subst hlk; simpa using hk
      · exact h3 l (by omega) hlt

/-- FirstDown is the number of the lowest line down (45_keypad_timers.md R156). -/
theorem firstDown_spec (lines : Word) (h : lines ≠ 0) :
    ∃ j : Reg, firstDown lines = BitVec.ofNat 8 j.val ∧ lines.getLsbD j.val = true ∧
      ∀ l < j.val, lines.getLsbD l = false := by
  obtain ⟨-, h2, h3, h4⟩ := firstDownFrom_spec lines 15 0
  refine ⟨⟨firstDownFrom lines 0 15, by omega⟩, rfl, ?_, fun l hl => h3 l (by omega) hl⟩
  by_cases hlt : firstDownFrom lines 0 15 < 15
  · exact h4 (by omega)
  · by_contra hne
    refine h (BitVec.eq_of_getLsbD_eq fun k hk => ?_)
    simp only [BitVec.ofNat_eq_ofNat, BitVec.getLsbD_zero]
    by_cases hk15 : k = 15
    · subst hk15
      have : firstDownFrom lines 0 15 = 15 := by omega
      simpa [this] using hne
    · exact h3 k (by omega) (by omega)

end Sys2Proof.Machine
end

