-- ==== Sys2Proof/Laws/Framebuffer.lean ====
section
/-! SUPPORT. The framebuffer: cells after one XORed pixel, and after a whole sprite. -/

namespace Sys2Proof.Machine

theorem pixelMask_getLsbD (x c : Nat) (b : Bool) :
    (pixelMask x b).getLsbD c = (decide (c = x % 64) && b) := by
  have hx : x % 64 < 64 := Nat.mod_lt x (by decide)
  have h1 : ((BitVec.ofBool b).setWidth 64).getLsbD (c - x % 64) = (decide (c = x % 64 ∨ c < x % 64) && b) := by
    by_cases h : c - x % 64 = 0
    · have : c = x % 64 ∨ c < x % 64 := by omega
      cases b <;> simp [h, this]
    · have : ¬ (c = x % 64 ∨ c < x % 64) := by omega
      rw [BitVec.getLsbD_setWidth, BitVec.getLsbD_of_ge _ _ (by omega)]
      simp [this]
  rw [pixelMask, BitVec.getLsbD_shiftLeft, h1]
  rcases Nat.lt_trichotomy c (x % 64) with h | h | h
  · have : c ≠ x % 64 := by omega
    simp [h, this]
  · simp [h, hx]
  · have h2 : ¬ c = x % 64 := by omega
    have h3 : ¬ c < x % 64 := by omega
    simp [h2, h3]

/-- One XORed pixel: its own wrapped cell is XORed with the bit, every other cell is as before. -/
theorem Framebuffer.cell_xorPixel (fb : Framebuffer) (x y : Nat) (b : Bool) (px py : Nat) :
    Framebuffer.cell (Framebuffer.xorPixel fb x y b) px py =
      if px % 64 = x % 64 ∧ py % 32 = y % 32 then (Framebuffer.cell fb px py ^^ b)
      else Framebuffer.cell fb px py := by
  have hpx : px % 64 < 64 := Nat.mod_lt px (by decide)
  unfold Framebuffer.cell Framebuffer.xorPixel
  simp only [Vector.getElem_set]
  by_cases hy : y % 32 = py % 32
  · rw [if_pos hy]
    simp only [BitVec.getLsbD_xor, pixelMask_getLsbD x _ b, hy]
    by_cases hx : px % 64 = x % 64 <;> simp [hx]
  · rw [if_neg hy, if_neg (by omega)]

theorem Framebuffer.cell_mod (fb : Framebuffer) (x y : Nat) :
    Framebuffer.cell fb (x % 64) (y % 32) = Framebuffer.cell fb x y := by
  simp [Framebuffer.cell]

/-- Framebuffers with the same cells are equal. -/
theorem Framebuffer.ext_of_cell {fb fb' : Framebuffer}
    (h : ∀ x y, Framebuffer.cell fb x y = Framebuffer.cell fb' x y) : fb = fb' := by
  refine Vector.ext fun r hr => BitVec.eq_of_getLsbD_eq fun c hc => ?_
  have := h c r
  simpa [Framebuffer.cell, Nat.mod_eq_of_lt hr, Nat.mod_eq_of_lt hc] using this

@[simp] theorem Framebuffer.cell_clear (x y : Nat) : Framebuffer.cell Framebuffer.clear x y = false := by
  simp [Framebuffer.cell, Framebuffer.clear]

theorem State.drawPixel_reg (s : State) (x y : Nat) (b : Bool) (r : Reg) :
    (s.drawPixel x y b).reg r = if r = vf then flagByte (Framebuffer.cell s.fb x y) else s.reg r :=
  State.reg_setReg _ vf r _

/-- Drawing columns changes the framebuffer and the registers only. -/
theorem State.drawColumns_eq (x0 y : Nat) (row : Byte) : ∀ (n c : Nat) (s : State),
    s.drawColumns x0 y row c n =
      { s with fb := (s.drawColumns x0 y row c n).fb, v := (s.drawColumns x0 y row c n).v }
  | 0, _, _ => rfl
  | n + 1, c, s => by
    unfold State.drawColumns
    rw [State.drawColumns_eq x0 y row n (c + 1)]
    rfl

theorem State.drawColumns_reg (x0 y : Nat) (row : Byte) (r : Reg) (hr : r ≠ vf) :
    ∀ (n c : Nat) (s : State), (s.drawColumns x0 y row c n).reg r = s.reg r
  | 0, _, _ => rfl
  | n + 1, c, s => by
    unfold State.drawColumns
    rw [State.drawColumns_reg x0 y row r hr n (c + 1), State.drawPixel_reg, if_neg hr]

/-- The cells after `n ≤ 64` columns of one row, from column `c` on. -/
theorem State.drawColumns_cell (x0 y : Nat) (row : Byte) : ∀ (n c : Nat) (s : State) (px py : Nat),
    c + n ≤ 64 →
    Framebuffer.cell (s.drawColumns x0 y row c n).fb px py =
      (Framebuffer.cell s.fb px py ^^
        (decide (py % 32 = y % 32) && (List.range' c n).any fun k =>
          decide (px % 64 = (x0 + k) % 64) && spriteBit row k))
  | 0, _, _, _, _, _ => by simp [State.drawColumns]
  | n + 1, c, s, px, py, h => by
    unfold State.drawColumns
    rw [State.drawColumns_cell x0 y row n (c + 1) _ px py (by omega), State.drawPixel_fb,
      Framebuffer.cell_xorPixel, List.range'_succ, List.any_cons]
    by_cases hy : py % 32 = y % 32
    · by_cases hx : px % 64 = (x0 + c) % 64
      · have hrest : ((List.range' (c + 1) n).any fun k =>
            decide (px % 64 = (x0 + k) % 64) && spriteBit row k) = false := by
          rw [List.any_eq_false]
          intro k hk
          rw [List.mem_range'_1] at hk
          have : ¬ px % 64 = (x0 + k) % 64 := by omega
          simp [this]
        simp only [hx, hy] at hrest ⊢
        simp [hrest]
      · simp [hx, hy]
    · simp [hy]

/-- VF after `n` columns: the value the last of their cells held before. -/
theorem State.drawColumns_flag (x0 y : Nat) (row : Byte) : ∀ (n c : Nat) (s : State),
    c + (n + 1) ≤ 64 →
    (s.drawColumns x0 y row c (n + 1)).reg vf =
      flagByte (Framebuffer.cell s.fb (x0 + (c + n)) y)
  | 0, c, s, _ => by
    simp only [State.drawColumns, State.drawPixel_reg, if_true, Nat.add_zero]
  | n + 1, c, s, h => by
    rw [State.drawColumns, State.drawColumns_flag x0 y row n (c + 1) _ (by omega), State.drawPixel_fb,
      Framebuffer.cell_xorPixel, if_neg (by omega), show c + 1 + n = c + (n + 1) by omega]

/-- Drawing rows changes the framebuffer and the registers only. -/
theorem State.drawRows_eq (x0 : Nat) : ∀ (rows : List Byte) (y : Nat) (s : State),
    s.drawRows x0 y rows = { s with fb := (s.drawRows x0 y rows).fb, v := (s.drawRows x0 y rows).v }
  | [], _, _ => rfl
  | row :: rows, y, s => by
    unfold State.drawRows
    rw [State.drawRows_eq x0 rows, State.drawColumns_eq]

theorem State.drawRows_reg (x0 : Nat) (r : Reg) (hr : r ≠ vf) : ∀ (rows : List Byte) (y : Nat) (s : State),
    (s.drawRows x0 y rows).reg r = s.reg r
  | [], _, _ => rfl
  | row :: rows, y, s => by
    unfold State.drawRows
    rw [State.drawRows_reg x0 r hr rows, State.drawColumns_reg x0 y row r hr]

/-- The cells after a sprite of at most 32 rows: the sprite's bit is XORed into each of its cells,
every other cell is as before. -/
theorem State.drawRows_cell (x0 : Nat) : ∀ (rows : List Byte) (y0 : Nat) (s : State) (px py : Nat),
    rows.length ≤ 32 →
    Framebuffer.cell (s.drawRows x0 y0 rows).fb px py =
      (Framebuffer.cell s.fb px py ^^
        (List.range rows.length).any fun r => decide (py % 32 = (y0 + r) % 32) &&
          (List.range' 0 8).any fun k => decide (px % 64 = (x0 + k) % 64) && spriteBit (rows.getD r 0) k)
  | [], _, _, _, _, _ => by simp [State.drawRows]
  | row :: rows, y0, s, px, py, h => by
    simp only [List.length_cons] at h
    unfold State.drawRows
    rw [State.drawRows_cell x0 rows (y0 + 1) _ px py (by omega),
      State.drawColumns_cell x0 y0 row 8 0 s px py (by omega), List.length_cons,
      List.range_succ_eq_map, List.any_cons, List.any_map]
    simp only [Function.comp_def, List.getD_cons_zero, Nat.succ_eq_add_one, List.getD_cons_succ, Nat.add_zero]
    simp only [Nat.add_assoc, Nat.add_comm 1]
    by_cases hy : py % 32 = y0 % 32
    · have hrest : ∀ g : Nat → Bool, ((List.range rows.length).any fun r =>
          decide (py % 32 = (y0 + (r + 1)) % 32) && g r) = false := by
        intro g
        rw [List.any_eq_false]
        intro r hr
        rw [List.mem_range] at hr
        have : ¬ py % 32 = (y0 + (r + 1)) % 32 := by omega
        simp [this]
      have hrest' := hrest (fun r => (List.range' 0 8).any fun k =>
        decide (px % 64 = (x0 + k) % 64) && spriteBit (rows.getD r 0) k)
      simp only [hrest', Bool.or_false, Bool.xor_false]
    · simp only [hy, decide_false, Bool.false_and, Bool.xor_false, Bool.false_or]

/-- VF after a sprite of at least one row: the value the cell under its bottom-right pixel held
before (44_display.md R141). -/
theorem State.drawRows_flag (x0 : Nat) : ∀ (rows : List Byte) (y0 : Nat) (s : State),
    rows ≠ [] → rows.length ≤ 32 →
    (s.drawRows x0 y0 rows).reg vf =
      flagByte (Framebuffer.cell s.fb (x0 + 7) (y0 + rows.length - 1))
  | [], _, _, h, _ => absurd rfl h
  | [row], y0, s, _, _ => by
    simp only [State.drawRows, List.length_singleton, Nat.add_sub_cancel]
    simpa using State.drawColumns_flag x0 y0 row 7 0 s (by omega)
  | row :: row' :: rows, y0, s, _, h => by
    simp only [List.length_cons] at h
    rw [State.drawRows, State.drawRows_flag x0 (row' :: rows) (y0 + 1) _ (by simp) (by simp; omega),
      State.drawColumns_cell x0 y0 row 8 0 s _ _ (by omega)]
    have hy : ¬ (y0 + 1 + (rows.length + 1) - 1) % 32 = y0 % 32 := by omega
    simp only [List.length_cons, hy, decide_false, Bool.false_and, Bool.xor_false]
    congr 2; omega

end Sys2Proof.Machine
end

