-- ==== Sys2Proof/Laws/Cycle.lean ====
section
/-! SUPPORT. The cycle: timers, fetch, and what a step can do, said once. -/

namespace Sys2Proof.Machine

/-! ### Timers -/

theorem advanceByte_toNat (c : Byte) : (advanceByte c 0).toNat = c.toNat - 1 := by
  have := c.isLt
  unfold advanceByte advance
  by_cases h : 0 < c.toNat
  · simp only [h, if_true, BitVec.toNat_ofNat]; omega
  · simp [h]; omega

/-- Everything TimerStep does (60_exceptions.md R177). -/
theorem State.timerStep_cases (s : State) :
    (s.div = 9 ∧ s.timerStep = { s with
      pacer := advance s.pacer s.params.pacerStart true
      div := 0
      dt := advanceByte s.dt 0
      st := advanceByte s.st 0 }) ∨
    (s.div ≠ 9 ∧ s.timerStep = { s with
      pacer := advance s.pacer s.params.pacerStart true
      div := s.div + 1 }) := by
  by_cases h : s.div = 9
  · exact .inl ⟨h, by simp [State.timerStep, h, Config.timerDivider, dtInit, stInit]⟩
  · exact .inr ⟨h, by simp [State.timerStep, h, Config.timerDivider]⟩

/-- TimerStep changes the timers only. -/
theorem State.timerStep_eq (s : State) : s.timerStep =
    { s with pacer := s.timerStep.pacer, div := s.timerStep.div, dt := s.timerStep.dt, st := s.timerStep.st } := by
  rcases s.timerStep_cases with ⟨-, h⟩ | ⟨-, h⟩
  all_goals rw [h]

theorem advance_le (c start : Nat) (h : c ≤ start) : advance c start true ≤ start := by
  unfold advance
  split
  · omega
  · simp

/-! ### Every instruction answers a next state -/

/-- No meaning stops the model: exec answers a next state on every instruction and state. -/
theorem exec_next (i : Instr) (s : State) : ∃ t, exec i s = .next t := by
  cases i <;> exact ⟨_, rfl⟩

theorem execWord_next (w : Word) (s : State) : ∃ t, execWord w s = .next t := by
  unfold execWord
  split
  · exact exec_next _ s
  · exact ⟨_, rfl⟩

/-- Everything fetch can do (40_cycle.md R82). -/
theorem State.fetch_cases (s : State) :
    (s.ip.toNat ≤ 4094 ∧ s.fetch = .ok
      (wordOfBytes (Memory.read s.mem s.ip.toNat) (Memory.read s.mem (s.ip.toNat + 1)), s.jump (s.ip + 2))) ∨
    (4094 < s.ip.toNat ∧ s.fetch = .error (addressFault (lowestOutside s.ip.toNat))) := by
  unfold State.fetch
  rcases s.memRead_cases s.ip.toNat 2 with ⟨h, he⟩ | ⟨h, he⟩ <;> rw [he]
  · rw [inMemory_iff] at h
    exact .inl ⟨by omega, rfl⟩
  · rw [not_inMemory_iff] at h
    exact .inr ⟨by omega, rfl⟩

/-- Everything a step can do: nothing when halted, a poll when waiting, the fetch fault, or the
four steps of a cycle (40_cycle.md R81). -/
theorem step_cases (s : State) :
    (s.halt = true ∧ step s = .next s) ∨
    (s.halt = false ∧ s.wait = true ∧ step s = .next s.pollKeys) ∨
    (s.halt = false ∧ s.wait = false ∧ 4094 < s.ip.toNat ∧
      step s = .next (s.raise (addressFault (lowestOutside s.ip.toNat)))) ∨
    (s.halt = false ∧ s.wait = false ∧ s.ip.toNat ≤ 4094 ∧
      ∃ u, execWord (wordOfBytes (Memory.read s.mem s.ip.toNat) (Memory.read s.mem (s.ip.toNat + 1)))
        (s.jump (s.ip + 2)).refreshKeys = .next u ∧ step s = .next u.endCycle) := by
  unfold step cycleRequest
  cases hh : s.halt
  · cases hw : s.wait
    · refine .inr (.inr ?_)
      rcases s.fetch_cases with ⟨h, he⟩ | ⟨h, he⟩
      · obtain ⟨u, hu⟩ := execWord_next
          (wordOfBytes (Memory.read s.mem s.ip.toNat) (Memory.read s.mem (s.ip.toNat + 1)))
          (s.jump (s.ip + 2)).refreshKeys
        refine .inr ⟨rfl, rfl, h, u, hu, ?_⟩
        simp only [runCycle, he, hu, Bool.false_eq_true, if_false]
      · exact .inl ⟨rfl, rfl, h, by simp [runCycle, he]⟩
    · exact .inr (.inl ⟨rfl, rfl, by simp⟩)
  · exact .inl ⟨rfl, by simp⟩

theorem State.endCycle_stopped (s : State) (h : s.halt = true ∨ s.wait = true) : s.endCycle = s := by
  rcases h with h | h <;> simp [State.endCycle, h]

theorem State.endCycle_running (s : State) (h : s.halt = false) (w : s.wait = false) :
    s.endCycle = s.timerStep := by simp [State.endCycle, h, w]

end Sys2Proof.Machine
end

