-- ==== Sys2Proof/Laws/Decode.lean ====
section
/-! SUPPORT. The fields of an encoded word, format by format, and the bytes of a word: what the
decoder's proofs cite instead of unfolding the codec. -/

namespace Sys2Proof

theorem field_lt (w : Word) (off len : Nat) : field w off len < 2 ^ len :=
  Nat.mod_lt _ (Nat.two_pow_pos len)

theorem header_encodeA {op : Nat} (h : op < 16) (nnn : Addr12) : header (encodeA op nnn) = op := by
  have := nnn.isLt
  simp [header, field, encodeA]; omega

theorem fieldNNN_encodeA (op : Nat) (nnn : Addr12) : fieldNNN (encodeA op nnn) = nnn := by
  have := nnn.isLt
  apply BitVec.eq_of_toNat_eq
  simp [fieldNNN, field, encodeA]; omega

theorem header_encodeI {op : Nat} (h : op < 16) (x : Reg) (nn : Byte) : header (encodeI op x nn) = op := by
  have := nn.isLt; have := x.isLt
  simp [header, field, encodeI]; omega

theorem fieldX_encodeI (op : Nat) (x : Reg) (nn : Byte) : fieldX (encodeI op x nn) = x := by
  have := nn.isLt; have := x.isLt
  apply Fin.ext
  simp [fieldX, field, encodeI]; omega

theorem fieldNN_encodeI (op : Nat) (x : Reg) (nn : Byte) : fieldNN (encodeI op x nn) = nn := by
  have := nn.isLt; have := x.isLt
  apply BitVec.eq_of_toNat_eq
  simp [fieldNN, field, encodeI]; omega

theorem header_encodeR {op : Nat} (h : op < 16) (x y : Reg) {n : Nat} (hn : n < 16) :
    header (encodeR op x y n) = op := by
  have := x.isLt; have := y.isLt
  simp [header, field, encodeR]; omega

theorem fieldX_encodeR (op : Nat) (x y : Reg) {n : Nat} (hn : n < 16) :
    fieldX (encodeR op x y n) = x := by
  have := x.isLt; have := y.isLt
  apply Fin.ext
  simp [fieldX, field, encodeR]; omega

theorem fieldY_encodeR (op : Nat) (x y : Reg) {n : Nat} (hn : n < 16) :
    fieldY (encodeR op x y n) = y := by
  have := x.isLt; have := y.isLt
  apply Fin.ext
  simp [fieldY, field, encodeR]; omega

theorem fieldN_encodeR (op : Nat) (x y : Reg) {n : Nat} (hn : n < 16) :
    fieldN (encodeR op x y n) = n := by
  have := x.isLt; have := y.isLt
  simp [fieldN, field, encodeR]; omega

theorem header_encodeU {op : Nat} (h : op < 16) (x : Reg) {fn : Nat} (hf : fn < 256) :
    header (encodeU op x fn) = op := by
  have := x.isLt
  simp [header, field, encodeU]; omega

theorem fieldX_encodeU (op : Nat) (x : Reg) {fn : Nat} (hf : fn < 256) :
    fieldX (encodeU op x fn) = x := by
  have := x.isLt
  apply Fin.ext
  simp [fieldX, field, encodeU]; omega

theorem lowByte_encodeU (op : Nat) (x : Reg) {fn : Nat} (hf : fn < 256) :
    field (encodeU op x fn) 8 8 = fn := by
  have := x.isLt
  simp [field, encodeU]; omega

/-- The bytes of a word make that word again. -/
theorem wordOfBytes_bytesOfWord (w : Word) :
    wordOfBytes (BitVec.ofNat 8 (w.toNat / 256)) (BitVec.ofNat 8 (w.toNat % 256)) = w := by
  have := w.isLt
  apply BitVec.eq_of_toNat_eq
  simp [wordOfBytes]; omega

/-- The word two bytes make is their big-endian value. -/
theorem wordOfBytes_toNat (b0 b1 : Byte) : (wordOfBytes b0 b1).toNat = 256 * b0.toNat + b1.toNat := by
  have := b0.isLt; have := b1.isLt
  simp [wordOfBytes]; omega

end Sys2Proof
end

