-- ==== Sys2Proof/Laws/Exec.lean ====
section
/-! SUPPORT. Everything the instructions that may fault can do, one lemma each, and the shape every
instruction's next state has. The other instructions' equations hold by rfl. -/

namespace Sys2Proof.Machine

theorem exec_ldB_cases (x : Reg) (s : State) :
    (s.i.toNat + 2 ≤ 0xFFF ∧ exec (.ldB x) s =
      .next { s with mem := Memory.writeBlock s.mem s.i.toNat (decimalDigits (s.reg x)) }) ∨
    (0xFFF < s.i.toNat + 2 ∧ exec (.ldB x) s =
      .next (s.raise (addressFault (lowestOutside s.i.toNat)))) := by
  rcases s.memWrite_cases s.operandAddr (decimalDigits (s.reg x)) with ⟨h, he⟩ | ⟨h, he⟩
  · rw [inMemory_iff, decimalDigits_length, State.operandAddr] at h
    exact .inl ⟨by omega, by simp only [exec, execLdB, he, State.settle_ok]; rfl⟩
  · rw [not_inMemory_iff, decimalDigits_length, State.operandAddr] at h
    exact .inr ⟨by omega, by simp only [exec, execLdB, he, State.settle_error]; rfl⟩

theorem exec_stRegs_cases (x : Reg) (s : State) :
    (s.i.toNat + x.val ≤ 0xFFF ∧ exec (.stRegs x) s =
      .next { s with mem := Memory.writeBlock s.mem s.i.toNat (s.regBlock x) }) ∨
    (0xFFF < s.i.toNat + x.val ∧ exec (.stRegs x) s =
      .next (s.raise (addressFault (lowestOutside s.i.toNat)))) := by
  rcases s.memWrite_cases s.operandAddr (s.regBlock x) with ⟨h, he⟩ | ⟨h, he⟩
  · rw [inMemory_iff, State.regBlock_length, State.operandAddr] at h
    exact .inl ⟨by omega, by simp only [exec, execStRegs, he, State.settle_ok]; rfl⟩
  · rw [not_inMemory_iff, State.regBlock_length, State.operandAddr] at h
    exact .inr ⟨by omega, by simp only [exec, execStRegs, he, State.settle_error]; rfl⟩

theorem exec_ldRegs_cases (x : Reg) (s : State) :
    (s.i.toNat + x.val ≤ 0xFFF ∧ exec (.ldRegs x) s =
      .next (s.setRegsFrom 0 (Memory.readBlock s.mem s.i.toNat (x.val + 1)))) ∨
    (0xFFF < s.i.toNat + x.val ∧ exec (.ldRegs x) s =
      .next (s.raise (addressFault (lowestOutside s.i.toNat)))) := by
  rcases s.memRead_cases s.operandAddr (x.val + 1) with ⟨h, he⟩ | ⟨h, he⟩
  · rw [inMemory_iff, State.operandAddr] at h
    exact .inl ⟨by omega, by simp only [exec, execLdRegs, he, except_map_ok, State.settle_ok]; rfl⟩
  · rw [not_inMemory_iff, State.operandAddr] at h
    exact .inr ⟨by omega, by simp only [exec, execLdRegs, he, except_map_error, State.settle_error]; rfl⟩

theorem exec_drw_cases (x y : Reg) (n : Nat) (s : State) :
    ((n = 0 ∨ s.i.toNat + n ≤ 0x1000) ∧ exec (.drw x y n) s =
      .next (s.drawRows (s.reg x).toNat (s.reg y).toNat (Memory.readBlock s.mem s.i.toNat n))) ∨
    (n ≠ 0 ∧ 0x1000 < s.i.toNat + n ∧ exec (.drw x y n) s =
      .next (s.raise (addressFault (lowestOutside s.i.toNat)))) := by
  rcases s.memRead_cases s.operandAddr n with ⟨h, he⟩ | ⟨h, he⟩
  · rw [inMemory_iff, State.operandAddr] at h
    exact .inl ⟨h, by simp only [exec, execDrw, he, except_map_ok, State.settle_ok]; rfl⟩
  · rw [not_inMemory_iff, State.operandAddr] at h
    exact .inr ⟨h.1, h.2, by simp only [exec, execDrw, he, except_map_error, State.settle_error]; rfl⟩

theorem exec_skp_cases (x : Reg) (s : State) :
    ((s.reg x).toNat ≤ 15 ∧ exec (.skp x) s = .next (s.skipIf (s.k.getLsbD (s.reg x).toNat))) ∨
    (15 < (s.reg x).toNat ∧ exec (.skp x) s = .next (s.raise (keyIndexFault (s.reg x)))) := by
  by_cases h : (s.reg x).toNat < 16
  · exact .inl ⟨by omega, by simp only [exec, execSkp, keyLine_inside h, except_map_ok, State.settle_ok]; rfl⟩
  · exact .inr ⟨by omega, by simp only [exec, execSkp, keyLine_outside h, except_map_error, State.settle_error]⟩

theorem exec_sknp_cases (x : Reg) (s : State) :
    ((s.reg x).toNat ≤ 15 ∧ exec (.sknp x) s = .next (s.skipIf (!s.k.getLsbD (s.reg x).toNat))) ∨
    (15 < (s.reg x).toNat ∧ exec (.sknp x) s = .next (s.raise (keyIndexFault (s.reg x)))) := by
  by_cases h : (s.reg x).toNat < 16
  · exact .inl ⟨by omega, by simp only [exec, execSknp, keyLine_inside h, except_map_ok, State.settle_ok]; rfl⟩
  · exact .inr ⟨by omega, by simp only [exec, execSknp, keyLine_outside h, except_map_error, State.settle_error]⟩

/-- Where the frame at SP lies in memory, which a legal SP gives (10_state.md R15). -/
theorem exec_call_cases (nnn : Addr12) (s : State) (h : inMemory s.sp 4 = true) :
    (s.sp = Config.stackTop ∧ exec (.call nnn) s =
      .next (s.raise (wordFault .stackOverflow (encode (.call nnn))))) ∨
    (s.sp ≠ Config.stackTop ∧ exec (.call nnn) s = .next { s with
      mem := Memory.writeBlock s.mem s.sp (frameOf s.params.frameOrder s.ip)
      sp := s.sp + 4
      ip := zextAddr nnn }) := by
  rcases s.push_cases s.ip (encode (.call nnn)) h with ⟨hs, he⟩ | ⟨hs, he⟩
  · exact .inl ⟨hs, by simp only [exec, execCall, he, except_map_error, State.settle_error]⟩
  · exact .inr ⟨hs, by simp only [exec, execCall, he, except_map_ok, State.settle_ok]; rfl⟩

theorem exec_ret_cases (s : State) (h : inMemory (s.sp - 4) 4 = true) :
    (s.sp = Config.stackBase ∧ exec .ret s = .next (s.raise (wordFault .stackUnderflow (encode .ret)))) ∨
    (s.sp ≠ Config.stackBase ∧
      frameValue s.params.frameOrder (Memory.readBlock s.mem (s.sp - 4) 4) < 0x10000 ∧
      exec .ret s = .next { s with
        sp := s.sp - 4
        ip := BitVec.ofNat 16 (frameValue s.params.frameOrder (Memory.readBlock s.mem (s.sp - 4) 4)) }) ∨
    (s.sp ≠ Config.stackBase ∧
      ¬ frameValue s.params.frameOrder (Memory.readBlock s.mem (s.sp - 4) 4) < 0x10000 ∧
      exec .ret s = .next (s.raise (addressFault
        (frameValue s.params.frameOrder (Memory.readBlock s.mem (s.sp - 4) 4))))) := by
  rcases s.pop_cases (encode .ret) h with ⟨hs, he⟩ | ⟨hs, hv, he⟩ | ⟨hs, hv, he⟩
  · exact .inl ⟨hs, by simp only [exec, execRet, he, except_map_error, State.settle_error]⟩
  · exact .inr (.inl ⟨hs, hv, by simp only [exec, execRet, he, except_map_ok, State.settle_ok]; rfl⟩)
  · exact .inr (.inr ⟨hs, hv, by simp only [exec, execRet, he, except_map_error, State.settle_error]⟩)

/-- The shape of a call's next state, wherever SP stands. -/
theorem exec_call_shape (nnn : Addr12) (s : State) :
    ∃ t, exec (.call nnn) s = .next t ∧
      ((∃ f, t = s.raise f) ∨ t = { s with mem := t.mem, sp := t.sp, ip := t.ip }) := by
  refine ⟨_, rfl, ?_⟩
  unfold State.push
  split
  · exact .inl ⟨_, rfl⟩
  · rcases s.memWrite_cases s.sp (frameOf s.params.frameOrder s.ip) with ⟨-, he⟩ | ⟨-, he⟩ <;> rw [he]
    · exact .inr rfl
    · exact .inl ⟨_, rfl⟩

/-- The shape of a return's next state, wherever SP stands. -/
theorem exec_ret_shape (s : State) :
    ∃ t, exec .ret s = .next t ∧ ((∃ f, t = s.raise f) ∨ t = { s with sp := t.sp, ip := t.ip }) := by
  refine ⟨_, rfl, ?_⟩
  unfold State.pop
  split
  · exact .inl ⟨_, rfl⟩
  · rcases s.memRead_cases (s.sp - Config.frameBytes) Config.frameBytes with ⟨-, he⟩ | ⟨-, he⟩ <;> rw [he]
    · by_cases hv : frameValue s.params.frameOrder
          (Memory.readBlock s.mem (s.sp - Config.frameBytes) Config.frameBytes) < 0x10000
      · simp only [hv, if_true]; exact .inr rfl
      · simp only [hv, if_false]; exact .inl ⟨_, rfl⟩
    · exact .inl ⟨_, rfl⟩

/-- The elements an instruction's next state may differ in, when it takes no fault. -/
def ExecShape : Instr → State → State → Prop
  | .jp _, s, t | .jpV0 _, s, t => t = { s with ip := t.ip }
  | .seImm _ _, s, t | .sneImm _ _, s, t | .seReg _ _, s, t | .sneReg _ _, s, t => t = { s with ip := t.ip }
  | .skp _, s, t | .sknp _, s, t => t = { s with ip := t.ip }
  | .call _, s, t => t = { s with mem := t.mem, sp := t.sp, ip := t.ip }
  | .ret, s, t => t = { s with sp := t.sp, ip := t.ip }
  | .ldImm _ _, s, t | .addImm _ _, s, t => t = { s with v := t.v }
  | .ldReg _ _, s, t | .orReg _ _, s, t | .andReg _ _, s, t | .xorReg _ _, s, t => t = { s with v := t.v }
  | .addReg _ _, s, t | .subReg _ _, s, t | .subnReg _ _, s, t => t = { s with v := t.v }
  | .shrReg _ _, s, t | .shlReg _ _, s, t => t = { s with v := t.v }
  | .ldVxDt _, s, t | .ldRegs _, s, t => t = { s with v := t.v }
  | .rnd _ _, s, t => t = { s with v := t.v, rndQueue := s.rndQueue.tail, rndDraws := s.rndDraws + 1 }
  | .ldI _, s, t | .addI _, s, t | .ldF _, s, t => t = { s with i := t.i }
  | .ldB _, s, t | .stRegs _, s, t => t = { s with mem := t.mem }
  | .cls, s, t => t = { s with fb := t.fb }
  | .drw _ _ _, s, t => t = { s with fb := t.fb, v := t.v }
  | .ldVxK _, s, t => t = { s with v := t.v } ∨ (s.k = 0 ∧ t = { s with wait := true, wx := t.wx })
  | .ldDtVx _, s, t => t = { s with dt := t.dt }
  | .ldStVx _, s, t => t = { s with st := t.st }

/-- Everything an instruction can do: take a fault, or change only the elements of its shape. -/
theorem exec_shape {i : Instr} {s t : State} (h : exec i s = .next t) :
    (∃ f, t = s.raise f) ∨ ExecShape i s t := by
  cases i with
  | call nnn =>
    obtain ⟨u, hu, hs⟩ := exec_call_shape nnn s
    rw [hu] at h; cases h; exact hs
  | ret =>
    obtain ⟨u, hu, hs⟩ := exec_ret_shape s
    rw [hu] at h; cases h; exact hs
  | ldB x =>
    rcases exec_ldB_cases x s with ⟨-, he⟩ | ⟨-, he⟩ <;> rw [he] at h <;> cases h
    · exact .inr rfl
    · exact .inl ⟨_, rfl⟩
  | stRegs x =>
    rcases exec_stRegs_cases x s with ⟨-, he⟩ | ⟨-, he⟩ <;> rw [he] at h <;> cases h
    · exact .inr rfl
    · exact .inl ⟨_, rfl⟩
  | ldRegs x =>
    rcases exec_ldRegs_cases x s with ⟨-, he⟩ | ⟨-, he⟩ <;> rw [he] at h <;> cases h
    · exact .inr (State.setRegsFrom_eq _ _ _)
    · exact .inl ⟨_, rfl⟩
  | drw x y n =>
    rcases exec_drw_cases x y n s with ⟨-, he⟩ | ⟨-, -, he⟩ <;> rw [he] at h <;> cases h
    · exact .inr (State.drawRows_eq _ _ _ _)
    · exact .inl ⟨_, rfl⟩
  | skp x =>
    rcases exec_skp_cases x s with ⟨-, he⟩ | ⟨-, he⟩ <;> rw [he] at h <;> cases h
    · exact .inr (by rw [State.skipIf_eq]; rfl)
    · exact .inl ⟨_, rfl⟩
  | sknp x =>
    rcases exec_sknp_cases x s with ⟨-, he⟩ | ⟨-, he⟩ <;> rw [he] at h <;> cases h
    · exact .inr (by rw [State.skipIf_eq]; rfl)
    · exact .inl ⟨_, rfl⟩
  | ldVxK x =>
    cases h
    by_cases hk : s.k = 0
    · exact .inr (.inr ⟨hk, by simp [State.awaitKey, hk]⟩)
    · refine .inr (.inl ?_)
      have : s.awaitKey x = s.setReg x (firstDown s.k) := if_neg hk
      rw [this]; rfl
  | seImm x nn => cases h; exact .inr (by rw [State.skipIf_eq]; rfl)
  | sneImm x nn => cases h; exact .inr (by rw [State.skipIf_eq]; rfl)
  | seReg x y => cases h; exact .inr (by rw [State.skipIf_eq]; rfl)
  | sneReg x y => cases h; exact .inr (by rw [State.skipIf_eq]; rfl)
  | _ => cases h; exact .inr rfl

end Sys2Proof.Machine
end

