-- ==== Sys2Proof/Laws/PerInstr.lean ====
section
/-! SUPPORT. Statements about every instruction as syntax, one lemma per constructor: the header of
its word is the top nibble of its row in the opcode map. -/

namespace Sys2Proof.Laws

/-- A well-formed instruction's word has the header of its row (30_encoding.md R62, R66). -/
def Header.Statement (i : Instr) : Prop :=
  i.wf = true → header (encode i) = header (opcodeRow i.rowNumber).bits

theorem Header.cls : Header.Statement .cls := fun _ => by decide
theorem Header.ret : Header.Statement .ret := fun _ => by decide
theorem Header.jp (nnn : Addr12) : Header.Statement (.jp nnn) := fun _ =>
  (header_encodeA (op := 1) (by decide) nnn).trans (by decide : 1 = header (opcodeRow 2).bits)
theorem Header.call (nnn : Addr12) : Header.Statement (.call nnn) := fun _ =>
  (header_encodeA (op := 2) (by decide) nnn).trans (by decide : 2 = header (opcodeRow 3).bits)
theorem Header.seImm (x : Reg) (nn : Byte) : Header.Statement (.seImm x nn) := fun _ =>
  (header_encodeI (op := 3) (by decide) x nn).trans (by decide : 3 = header (opcodeRow 4).bits)
theorem Header.sneImm (x : Reg) (nn : Byte) : Header.Statement (.sneImm x nn) := fun _ =>
  (header_encodeI (op := 4) (by decide) x nn).trans (by decide : 4 = header (opcodeRow 5).bits)
theorem Header.seReg (x y : Reg) : Header.Statement (.seReg x y) := fun _ =>
  (header_encodeR (op := 5) (by decide) x y (by decide)).trans (by decide : 5 = header (opcodeRow 6).bits)
theorem Header.ldImm (x : Reg) (nn : Byte) : Header.Statement (.ldImm x nn) := fun _ =>
  (header_encodeI (op := 6) (by decide) x nn).trans (by decide : 6 = header (opcodeRow 7).bits)
theorem Header.addImm (x : Reg) (nn : Byte) : Header.Statement (.addImm x nn) := fun _ =>
  (header_encodeI (op := 7) (by decide) x nn).trans (by decide : 7 = header (opcodeRow 8).bits)
theorem Header.ldReg (x y : Reg) : Header.Statement (.ldReg x y) := fun _ =>
  (header_encodeR (op := 8) (by decide) x y (by decide)).trans (by decide : 8 = header (opcodeRow 9).bits)
theorem Header.orReg (x y : Reg) : Header.Statement (.orReg x y) := fun _ =>
  (header_encodeR (op := 8) (by decide) x y (by decide)).trans (by decide : 8 = header (opcodeRow 10).bits)
theorem Header.andReg (x y : Reg) : Header.Statement (.andReg x y) := fun _ =>
  (header_encodeR (op := 8) (by decide) x y (by decide)).trans (by decide : 8 = header (opcodeRow 11).bits)
theorem Header.xorReg (x y : Reg) : Header.Statement (.xorReg x y) := fun _ =>
  (header_encodeR (op := 8) (by decide) x y (by decide)).trans (by decide : 8 = header (opcodeRow 12).bits)
theorem Header.addReg (x y : Reg) : Header.Statement (.addReg x y) := fun _ =>
  (header_encodeR (op := 8) (by decide) x y (by decide)).trans (by decide : 8 = header (opcodeRow 13).bits)
theorem Header.subReg (x y : Reg) : Header.Statement (.subReg x y) := fun _ =>
  (header_encodeR (op := 8) (by decide) x y (by decide)).trans (by decide : 8 = header (opcodeRow 14).bits)
theorem Header.shrReg (x y : Reg) : Header.Statement (.shrReg x y) := fun _ =>
  (header_encodeR (op := 8) (by decide) x y (by decide)).trans (by decide : 8 = header (opcodeRow 15).bits)
theorem Header.subnReg (x y : Reg) : Header.Statement (.subnReg x y) := fun _ =>
  (header_encodeR (op := 8) (by decide) x y (by decide)).trans (by decide : 8 = header (opcodeRow 16).bits)
theorem Header.shlReg (x y : Reg) : Header.Statement (.shlReg x y) := fun _ =>
  (header_encodeR (op := 8) (by decide) x y (by decide)).trans (by decide : 8 = header (opcodeRow 17).bits)
theorem Header.sneReg (x y : Reg) : Header.Statement (.sneReg x y) := fun _ =>
  (header_encodeR (op := 9) (by decide) x y (by decide)).trans (by decide : 9 = header (opcodeRow 18).bits)
theorem Header.ldI (nnn : Addr12) : Header.Statement (.ldI nnn) := fun _ =>
  (header_encodeA (op := 10) (by decide) nnn).trans (by decide : 10 = header (opcodeRow 19).bits)
theorem Header.jpV0 (nnn : Addr12) : Header.Statement (.jpV0 nnn) := fun _ =>
  (header_encodeA (op := 11) (by decide) nnn).trans (by decide : 11 = header (opcodeRow 20).bits)
theorem Header.rnd (x : Reg) (nn : Byte) : Header.Statement (.rnd x nn) := fun _ =>
  (header_encodeI (op := 12) (by decide) x nn).trans (by decide : 12 = header (opcodeRow 21).bits)
theorem Header.drw (x y : Reg) (n : Nat) : Header.Statement (.drw x y n) := fun h =>
  (header_encodeR (op := 13) (by decide) x y (by simpa [Instr.wf, rowCountFits] using h)).trans (by decide : 13 = header (opcodeRow 22).bits)
theorem Header.skp (x : Reg) : Header.Statement (.skp x) := fun _ =>
  (header_encodeU (op := 14) (by decide) x (by decide)).trans (by decide : 14 = header (opcodeRow 23).bits)
theorem Header.sknp (x : Reg) : Header.Statement (.sknp x) := fun _ =>
  (header_encodeU (op := 14) (by decide) x (by decide)).trans (by decide : 14 = header (opcodeRow 24).bits)
theorem Header.ldVxDt (x : Reg) : Header.Statement (.ldVxDt x) := fun _ =>
  (header_encodeU (op := 15) (by decide) x (by decide)).trans (by decide : 15 = header (opcodeRow 25).bits)
theorem Header.ldVxK (x : Reg) : Header.Statement (.ldVxK x) := fun _ =>
  (header_encodeU (op := 15) (by decide) x (by decide)).trans (by decide : 15 = header (opcodeRow 26).bits)
theorem Header.ldDtVx (x : Reg) : Header.Statement (.ldDtVx x) := fun _ =>
  (header_encodeU (op := 15) (by decide) x (by decide)).trans (by decide : 15 = header (opcodeRow 27).bits)
theorem Header.ldStVx (x : Reg) : Header.Statement (.ldStVx x) := fun _ =>
  (header_encodeU (op := 15) (by decide) x (by decide)).trans (by decide : 15 = header (opcodeRow 28).bits)
theorem Header.addI (x : Reg) : Header.Statement (.addI x) := fun _ =>
  (header_encodeU (op := 15) (by decide) x (by decide)).trans (by decide : 15 = header (opcodeRow 29).bits)
theorem Header.ldF (x : Reg) : Header.Statement (.ldF x) := fun _ =>
  (header_encodeU (op := 15) (by decide) x (by decide)).trans (by decide : 15 = header (opcodeRow 30).bits)
theorem Header.ldB (x : Reg) : Header.Statement (.ldB x) := fun _ =>
  (header_encodeU (op := 15) (by decide) x (by decide)).trans (by decide : 15 = header (opcodeRow 31).bits)
theorem Header.stRegs (x : Reg) : Header.Statement (.stRegs x) := fun _ =>
  (header_encodeU (op := 15) (by decide) x (by decide)).trans (by decide : 15 = header (opcodeRow 32).bits)
theorem Header.ldRegs (x : Reg) : Header.Statement (.ldRegs x) := fun _ =>
  (header_encodeU (op := 15) (by decide) x (by decide)).trans (by decide : 15 = header (opcodeRow 33).bits)

end Sys2Proof.Laws
end

