-- ==== Sys2Proof/Tests/Slice0.lean ====
section
/-! SUPPORT. The model's own tests. Expected values are the vectors of spec/95_test_vectors.md (named
at each test) or worked by hand from the rule cited, never the model's own answers; then one witness
for each hypothesis of each statement of Certificates/Slice0/Obligations.lean. -/

namespace Sys2Proof.Tests

open Sys2Proof Sys2Proof.Machine

/-! ### Helpers -/

/-- Reset with the inputs and PACER_START made concrete: all keys up, `rnd` = 0xB7 (V-ALU-39). -/
def base : State :=
  { State.reset with
    params := { frameOrder := .big, shiftSrc := .x, pacerStart := 600 }
    pacer := 600
    keyQueue := [0x0000]
    rndQueue := [0xB7] }

/-- `s` with some registers set. -/
def withRegs (s : State) : List (Reg × Byte) → State
  | [] => s
  | (r, b) :: rest => withRegs (s.setReg r b) rest

/-- `s` with bytes stored from address `a` on. -/
def withMem (s : State) (a : Nat) (bytes : List Byte) : State :=
  { s with mem := Memory.writeBlock s.mem a bytes }

/-- The state after an outcome; none where the machine stopped. -/
def nextOf : Result → Option State
  | .next t => some t
  | .fault _ => none
  | .refused _ => none

/-- One cycle request with the word `w` under test placed where it is fetched; what `f` sees after it. -/
def after {α : Type} (s : State) (w : Nat) (f : State → α) : Option α :=
  (nextOf (step (s.withFetchWord 16 w))).map f

/-- `base` with one element set. -/
def atI (a : Word) : State := { base with i := a }
def atSp (a : Nat) : State := { base with sp := a }
def atIp (a : Word) : State := { base with ip := a }
def atDiv (n : Nat) : State := { base with div := n }
def withLatch (lines : Word) : State := { base with k := lines }

/-- Little frames, or shifts of VY. -/
def little : State := { base with params := { base.params with frameOrder := .little } }
def shiftY : State := { base with params := { base.params with shiftSrc := .y } }

/-! ### WellFormed smoke: its one check refuses an ill-formed term -/

theorem test_wf_rows_sixteen_refused : (Instr.drw 1 2 16).wf = false := by decide
theorem test_wf_rows_fifteen_accepted : (Instr.drw 1 2 15).wf = true := by decide

/-! ### Decoding: words written out from the patterns of 30_encoding.md R66, every constructor -/

theorem test_decode_cls : decodeWord 0x00E0 = .ok .cls := by decide                    -- V-ENC-1
theorem test_decode_ret : decodeWord 0x00EE = .ok .ret := by decide                    -- V-ENC-2
theorem test_decode_jp : decodeWord 0x1ABC = .ok (.jp 0xABC) := by decide              -- V-ENC-3
theorem test_decode_call : decodeWord 0x2200 = .ok (.call 0x200) := by decide          -- V-ENC-4
theorem test_decode_seImm : decodeWord 0x3A7F = .ok (.seImm 0xA 0x7F) := by decide     -- V-ENC-5
theorem test_decode_sneImm : decodeWord 0x4A7F = .ok (.sneImm 0xA 0x7F) := by decide   -- V-CF-15
theorem test_decode_seReg : decodeWord 0x5AB0 = .ok (.seReg 0xA 0xB) := by decide      -- V-ENC-6
theorem test_decode_ldImm : decodeWord 0x6AFF = .ok (.ldImm 0xA 0xFF) := by decide     -- V-ALU-1
theorem test_decode_addImm : decodeWord 0x7302 = .ok (.addImm 3 2) := by decide        -- V-ALU-3
theorem test_decode_ldReg : decodeWord 0x8120 = .ok (.ldReg 1 2) := by decide          -- 8XY0
theorem test_decode_orReg : decodeWord 0x8121 = .ok (.orReg 1 2) := by decide          -- 8XY1
theorem test_decode_andReg : decodeWord 0x8122 = .ok (.andReg 1 2) := by decide        -- 8XY2
theorem test_decode_xorReg : decodeWord 0x8123 = .ok (.xorReg 1 2) := by decide        -- 8XY3
theorem test_decode_addReg : decodeWord 0x8014 = .ok (.addReg 0 1) := by decide        -- S8, S9
theorem test_decode_subReg : decodeWord 0x8125 = .ok (.subReg 1 2) := by decide        -- 8XY5
theorem test_decode_shrReg : decodeWord 0x8AB6 = .ok (.shrReg 0xA 0xB) := by decide    -- V-ENC-7
theorem test_decode_subnReg : decodeWord 0x8127 = .ok (.subnReg 1 2) := by decide      -- 8XY7
theorem test_decode_shlReg : decodeWord 0x812E = .ok (.shlReg 1 2) := by decide        -- 8XYE
theorem test_decode_sneReg : decodeWord 0x9AB0 = .ok (.sneReg 0xA 0xB) := by decide    -- V-CF-20
theorem test_decode_ldI : decodeWord 0xA123 = .ok (.ldI 0x123) := by decide            -- V-IDX-1
theorem test_decode_jpV0 : decodeWord 0xB300 = .ok (.jpV0 0x300) := by decide          -- V-CF-11
theorem test_decode_rnd : decodeWord 0xC30F = .ok (.rnd 3 0x0F) := by decide           -- V-ENC-12
theorem test_decode_drw : decodeWord 0xD12F = .ok (.drw 1 2 15) := by decide           -- V-ENC-8
theorem test_decode_skp : decodeWord 0xE19E = .ok (.skp 1) := by decide                -- V-ENC-9
theorem test_decode_sknp : decodeWord 0xE0A1 = .ok (.sknp 0) := by decide              -- V-KEY-3
theorem test_decode_ldVxDt : decodeWord 0xF107 = .ok (.ldVxDt 1) := by decide          -- V-TMR-3
theorem test_decode_ldVxK : decodeWord 0xF50A = .ok (.ldVxK 5) := by decide            -- V-ENC-11
theorem test_decode_ldDtVx : decodeWord 0xF215 = .ok (.ldDtVx 2) := by decide          -- FX15
theorem test_decode_ldStVx : decodeWord 0xF218 = .ok (.ldStVx 2) := by decide          -- FX18
theorem test_decode_addI : decodeWord 0xF41E = .ok (.addI 4) := by decide              -- FX1E
theorem test_decode_ldF : decodeWord 0xF429 = .ok (.ldF 4) := by decide                -- FX29
theorem test_decode_ldB : decodeWord 0xF133 = .ok (.ldB 1) := by decide                -- V-IDX-5
theorem test_decode_stRegs : decodeWord 0xF255 = .ok (.stRegs 2) := by decide          -- V-IDX-11
theorem test_decode_ldRegs : decodeWord 0xFE65 = .ok (.ldRegs 0xE) := by decide        -- V-ENC-10

/-- V-ENC-20 to V-ENC-27: words that are no instruction. -/
theorem test_illegal_words :
    [0x0000, 0x0123, 0x00E1, 0x00EF, 0x01E0, 0x5011, 0x9123, 0x8008, 0x800D, 0x800F, 0xE09F, 0xE0A0,
     0xE000, 0xF000, 0xF01F, 0xF056, 0xF0FF].all (fun w => decodeTableWord 16 w == none) = true := by decide

/-- The host's view of a table word (30_encoding.md R66, row 16). -/
theorem test_decode_table_word : decodeTableWord 16 0x8AB6 = some (.shrReg 0xA 0xB) := by decide

/-- Big-endian memory order (20_memory.md R43; V-FET-1). -/
theorem test_decode_bytes_big_endian : decodeBytes [0x12, 0x34, 0xFF] = .ok (.jp 0x234, [0xFF]) := by decide
theorem test_decode_one_byte : decodeBytes [0x12] = .reject .tooShort := by decide

/-- P1 of 95_test_vectors.md: its five lines assemble to its ten image bytes. -/
theorem test_assemble_program : assembleProgram
    [.op .ld [.v 0, .num 5], .op .ld [.v 1, .num 2], .op .add [.v 0, .v 1], .op .se [.v 2, .num 1],
     .op .jp [.num 0x208]] =
    some [0x60, 0x05, 0x61, 0x02, 0x80, 0x14, 0x32, 0x01, 0x12, 0x08] := by decide
/-- V-ENC-8 and V-ENC-10: the text of a word. -/
theorem test_text_drw : instructionText (.drw 1 2 15) = "DRW V1, V2, 0x0F" := by decide
theorem test_text_ldRegs : instructionText (.ldRegs 0xE) = "LD VE, [I]" := by decide
/-- The short form of a shift has Y = 0, and raw data (30_encoding.md R72). -/
theorem test_assemble_short_shift : assembleLine (.op .shr [.v 0xA]) = some [0x8A, 0x06] ∧
    assembleLine (.dw 0x1234) = some [0x12, 0x34] ∧ assembleLine (.db [1, 255]) = some [0x01, 0xFF] ∧
    assembleLine (.op .ld [.v 0, .num 256]) = none := by decide

/-! ### Fetch, the cycle, faults of the cycle -/

/-- V-FET-2: an odd IP is no fault. -/
theorem test_fetch_odd : after { base with ip := 0x201 } 0x602A (fun t => (t.reg 0, t.ip)) =
    some (0x2A, 0x203) := by decide

/-- V-FET-4: the fetch fault at 0xFFF: record, IP and DIV. -/
theorem test_fetch_beyond : (nextOf (step { base with ip := 0xFFF })).map
    (fun t => (t.fault, t.ip, t.div)) = some (some ⟨.addressFault, 0x1000⟩, 0xFFF, 0) := by decide

/-- V-FET-5. -/
theorem test_fetch_far_beyond : (nextOf (step { base with ip := 0x10FE })).map
    (fun t => (t.fault, t.ip)) = some (some ⟨.addressFault, 0x10FE⟩, 0x10FE) := by decide

/-- V-RST-1: with no image the first cycle is UnimplementedInstruction(0x0000). -/
theorem test_empty_image_faults : (nextOf (step base)).map
    (fun t => (t.fault, t.ip, t.halt)) = some (some ⟨.unimplementedInstruction, 0⟩, 0x202, true) := by decide

/-- V-TMR-5: DT and ST clamp at zero. -/
theorem test_timers_clamp : after { base with div := 9 } 0x1200 (fun t => (t.dt, t.st, t.div)) =
    some (0, 0, 0) := by decide

/-- V-TMR-8: a faulting cycle moves no timer. -/
theorem test_fault_freezes_timers : after { base with div := 9, dt := 5 } 0x0000 (fun t => (t.dt, t.div)) =
    some (5, 9) := by decide

/-- V-TMR-9: PACER 600 then 599; 0 reloads. -/
theorem test_pacer : after base 0x1200 (fun t => t.pacer) = some 599 ∧
    after { base with pacer := 0 } 0x1200 (fun t => t.pacer) = some 600 := by decide

/-- The ports after a fault (10_state.md R28; 60_exceptions.md R160: InvalidLoad is code 4). -/
theorem test_fault_ports : (base.raise ⟨.invalidLoad, 3585⟩).faultCode = some 4 ∧
    (base.raise ⟨.invalidLoad, 3585⟩).faultInfo = some 3585 ∧ base.faultCode = none := by decide

/-- Cell (3, 1) is number 64 × 1 + 3 of the framebuffer port (10_state.md R23). -/
theorem test_framebuffer_port :
    ({ base with fb := Framebuffer.xorPixel base.fb 3 1 true }).fbPort[67]? = some true := by decide

/-! ### Control flow -/

theorem test_jp : after base 0x1208 (fun t => t.ip) = some 0x208 := by decide          -- V-CF-1

/-- V-CF-4, big: the frame, SP and IP. -/
theorem test_call_big : after base 0x2300 (fun t => (Memory.readBlock t.mem 0xEA0 4, t.sp, t.ip)) =
    some ([0x00, 0x00, 0x02, 0x02], 0xEA4, 0x300) := by decide

/-- V-CF-5: the thirteenth call. -/
theorem test_call_overflow : after { base with sp := 0xED0 } 0x2300 (fun t => (t.fault, t.sp)) =
    some (some ⟨.stackOverflow, 0x2300⟩, 0xED0) := by decide

/-- V-CF-8: a popped value is not checked. -/
theorem test_ret : after { withMem base 0xEA0 [0x00, 0x00, 0x12, 0x35] with sp := 0xEA4 } 0x00EE
    (fun t => (t.ip, t.sp)) = some (0x1235, 0xEA0) := by decide

/-- V-CF-10: the same frame read little-endian has its upper half set. -/
theorem test_ret_little : after { withMem little 0xEA0 [0x00, 0x00, 0x12, 0x35] with sp := 0xEA4 } 0x00EE
    (fun t => (t.fault, t.sp)) = some (some ⟨.addressFault, 0x35120000⟩, 0xEA4) := by decide

/-- V-CF-12: never reduced modulo 4096. -/
theorem test_jpV0 : after (withRegs base [(0, 0xFF)]) 0xBFFF (fun t => t.ip) = some 0x10FE := by decide

theorem test_seImm : after (withRegs base [(0xA, 0x7F)]) 0x3A7F (fun t => t.ip) = some 0x204 ∧   -- V-CF-13
    after (withRegs base [(0xA, 0x7E)]) 0x3A7F (fun t => t.ip) = some 0x202 := by decide          -- V-CF-14
theorem test_sneImm : after (withRegs base [(0xA, 0x7F)]) 0x4A7F (fun t => t.ip) = some 0x202 ∧  -- V-CF-15
    after base 0x4A7F (fun t => t.ip) = some 0x204 := by decide                                   -- V-CF-16
theorem test_seReg : after (withRegs base [(0xA, 0x33), (0xB, 0x34)]) 0x5AB0 (fun t => t.ip) = some 0x202 ∧
    after base 0x5AA0 (fun t => t.ip) = some 0x204 := by decide                                   -- V-CF-18, 19
theorem test_sneReg : after (withRegs base [(0xA, 0x33), (0xB, 0x34)]) 0x9AB0 (fun t => t.ip) = some 0x204 ∧
    after base 0x9AA0 (fun t => t.ip) = some 0x202 := by decide                                   -- V-CF-20, 22

/-! ### Registers and the ALU -/

theorem test_ldImm : after base 0x6F07 (fun t => t.reg vf) = some 0x07 := by decide               -- V-ALU-2
theorem test_addImm : after (withRegs base [(3, 0xFF)]) 0x7302 (fun t => (t.reg 3, t.reg vf)) =
    some (0x01, 0x00) := by decide                                                                -- V-ALU-3
theorem test_ldReg : after (withRegs base [(0, 0x11), (1, 0x22)]) 0x8010 (fun t => (t.reg 0, t.reg 1)) =
    some (0x22, 0x22) := by decide                                                                -- V-ALU-5
theorem test_orReg : after (withRegs base [(0, 0xF0), (1, 0x0F), (vf, 1)]) 0x8011
    (fun t => (t.reg 0, t.reg vf)) = some (0xFF, 1) := by decide                                  -- V-ALU-6
theorem test_andReg : after (withRegs base [(0, 0xF3), (1, 0x3C), (vf, 1)]) 0x8012
    (fun t => (t.reg 0, t.reg vf)) = some (0x30, 1) := by decide                                  -- V-ALU-7
theorem test_xorReg : after (withRegs base [(0, 0xFF), (1, 0x0F), (vf, 1)]) 0x8013
    (fun t => (t.reg 0, t.reg vf)) = some (0xF0, 1) := by decide                                  -- V-ALU-8
theorem test_addReg : after (withRegs base [(0, 0xFF), (1, 0x01)]) 0x8014
    (fun t => (t.reg 0, t.reg vf)) = some (0x00, 1) := by decide                                  -- V-ALU-11
theorem test_addReg_into_flag : after (withRegs base [(vf, 0x10), (0, 0x20)]) 0x8F04
    (fun t => t.reg vf) = some 0 := by decide                                                     -- V-ALU-18
theorem test_subReg : after (withRegs base [(0, 0x03), (1, 0x05)]) 0x8015
    (fun t => (t.reg 0, t.reg vf)) = some (0xFE, 0) := by decide                                  -- V-ALU-20
theorem test_subReg_equal : after (withRegs base [(0, 0x07), (1, 0x07)]) 0x8015
    (fun t => (t.reg 0, t.reg vf)) = some (0x00, 1) := by decide                                  -- V-ALU-21
theorem test_subnReg : after (withRegs base [(0, 0x03), (1, 0x05)]) 0x8017
    (fun t => (t.reg 0, t.reg vf)) = some (0x02, 1) := by decide                                  -- V-ALU-25
theorem test_shrReg : after (withRegs base [(0, 0x05), (1, 0xFF)]) 0x8016
    (fun t => (t.reg 0, t.reg vf, t.reg 1)) = some (0x02, 1, 0xFF) := by decide                   -- V-ALU-28
theorem test_shrReg_y : after (withRegs shiftY [(0, 0x05), (1, 0xFE)]) 0x8016
    (fun t => (t.reg 0, t.reg vf)) = some (0x7F, 0) := by decide                                  -- V-ALU-33
theorem test_shlReg : after (withRegs base [(0, 0x81), (1, 0x01)]) 0x801E
    (fun t => (t.reg 0, t.reg vf)) = some (0x02, 1) := by decide                                  -- V-ALU-34
theorem test_shlReg_y : after (withRegs shiftY [(0, 0x05), (1, 0xC1)]) 0x801E
    (fun t => (t.reg 0, t.reg vf)) = some (0x82, 1) := by decide                                  -- V-ALU-38
theorem test_rnd : after base 0xC30F (fun t => (t.reg 3, t.rndQueue)) = some (0x07, []) := by decide -- V-ALU-39

/-! ### The address register and memory -/

theorem test_ldI : after base 0xA123 (fun t => t.i) = some 0x0123 := by decide                    -- V-IDX-1
theorem test_addI : after { withRegs base [(0, 1)] with i := 0xFFFF } 0xF01E
    (fun t => (t.i, t.reg vf)) = some (0, 0) := by decide                                         -- V-IDX-3
theorem test_ldF : after (withRegs base [(0, 0xFF)]) 0xF029 (fun t => t.i) = some 0x04FB := by decide -- V-IDX-4c
theorem test_ldB : after { withRegs base [(1, 0xEA)] with i := 0xFFD } 0xF133
    (fun t => (Memory.readBlock t.mem 0xFFD 3, t.i)) = some ([2, 3, 4], 0xFFD) := by decide       -- V-IDX-9
theorem test_ldB_outside : after { withRegs base [(1, 0xEA)] with i := 0xFFE } 0xF133
    (fun t => (t.fault, Memory.read t.mem 0xFFE)) = some (some ⟨.addressFault, 0x1000⟩, 0) := by decide -- V-IDX-10
theorem test_stRegs : after { withRegs base [(0, 0x0A), (1, 0x0B), (2, 0x0C), (3, 0x0D)] with i := 0x300 } 0xF255
    (fun t => Memory.readBlock t.mem 0x300 4) = some [0x0A, 0x0B, 0x0C, 0x00] := by decide        -- V-IDX-11
theorem test_stRegs_outside : after { withRegs base [(0, 1), (1, 2)] with i := 0xFFF } 0xF155
    (fun t => (t.fault, Memory.read t.mem 0xFFF)) = some (some ⟨.addressFault, 0x1000⟩, 0) := by decide -- V-IDX-13
theorem test_ldRegs : after { withMem base 0x300 [0x11, 0x22, 0x33, 0x44] with i := 0x300 } 0xF265
    (fun t => (t.reg 0, t.reg 1, t.reg 2, t.reg 3)) = some (0x11, 0x22, 0x33, 0x00) := by decide  -- V-IDX-15
theorem test_ldRegs_font : after base 0xF065 (fun t => t.reg 0) = some 0xF0 := by decide          -- V-IDX-18

/-! ### The framebuffer -/

theorem test_cls : after { base with fb := Vector.replicate 32 0xFFFFFFFFFFFFFFFF } 0x00E0
    (fun t => t.fb) = some (Vector.replicate 32 0) := by decide                                   -- V-DRW-1

/-- V-DRW-6: the three lit cells of a wrapped sprite, two lit rows in all, and VF. -/
theorem test_drw_wraps :
    after { withRegs (withMem base 0x300 [0xC0, 0x01]) [(0, 0x3E), (1, 0x1F)] with i := 0x300 } 0xD012
      (fun t => (t.fb[31], t.fb[0], (t.fb.toList.filter (fun r => r != 0)).length, t.reg vf)) =
    some (0xC000000000000000, 0x20, 2, 0) := by decide

/-- V-DRW-4: the flag is the old value of the last cell, whose sprite bit is 0. -/
theorem test_drw_last_cell :
    after { withMem base 0x300 [0x80] with i := 0x300, fb := Framebuffer.xorPixel base.fb 7 0 true } 0xD011
      (fun t => (t.fb[0], t.reg vf)) = some (0x81, 1) := by decide

/-! ### Keypad and timers -/

theorem test_skp : after { withRegs base [(0, 5)] with keyQueue := [0x0020] } 0xE09E
    (fun t => (t.k, t.ip)) = some (0x0020, 0x204) := by decide                                    -- V-KEY-1
theorem test_skp_no_line : after (withRegs base [(0, 0x10)]) 0xE09E
    (fun t => t.fault) = some (some ⟨.keyIndexFault, 0x10⟩) := by decide                          -- V-KEY-5
theorem test_sknp : after { withRegs base [(0, 0x0F)] with keyQueue := [0x7FFF] } 0xE0A1
    (fun t => t.ip) = some 0x204 := by decide                                                     -- V-KEY-4
theorem test_ldVxK_down : after { base with keyQueue := [0x8100] } 0xF50A
    (fun t => (t.reg 5, t.wait, t.div)) = some (8, false, 1) := by decide                         -- V-KEY-7
theorem test_ldVxK_waits : after base 0xF50A (fun t => (t.wait, t.wx, t.div)) =
    some (true, 5, 0) := by decide                                                                -- V-KEY-8
/-- V-KEY-10: the poll that ends the wait. -/
theorem test_poll_ends_wait :
    (nextOf (step { base with wait := true, wx := 5, keyQueue := [0x0001], ip := 0x202 })).map
      (fun t => (t.reg 5, t.wait, t.div)) = some (0, false, 1) := by decide
theorem test_ldDtVx : after { withRegs base [(0, 3)] with div := 9 } 0xF015
    (fun t => (t.dt, t.div)) = some (2, 0) := by decide                                           -- V-TMR-2
theorem test_ldVxDt : after { base with dt := 1, div := 9 } 0xF107
    (fun t => (t.reg 1, t.dt)) = some (1, 0) := by decide                                         -- V-TMR-3
theorem test_ldStVx : after (withRegs base [(0, 0xFF)]) 0xF018 (fun t => t.st) = some 0xFF := by decide -- V-TMR-4

/-! ### Witnesses: the hypotheses of each statement are met together, each clause at its boundary -/

theorem witness_DecodeOfEncodeIsIdentity : (Instr.drw 1 2 15).wf = true := by decide
theorem witness_EncodeOfDecodeIsIdentity : decodeWord 0xFE65 = .ok (.ldRegs 0xE) := by decide

theorem witness_AssemblyIsUnique_line : assembleOp .shl [.v 3] = some (.shlReg 3 0) ∧
    assembleOp .drw [.v 1, .v 2, .num 15] = some (.drw 1 2 15) := by decide

/-- IP at the last legal fetch address. -/
def atEnd (w : Nat) : State := { base with ip := 0xFFE }.withFetchWord 16 w

theorem witness_StepRunsTheDecodedInstruction : (atEnd 0x6105).halt = false ∧ (atEnd 0x6105).wait = false ∧
    (atEnd 0x6105).ip.toNat ≤ 4094 ∧ decodeBytes [Memory.read (atEnd 0x6105).mem (atEnd 0x6105).ip.toNat,
      Memory.read (atEnd 0x6105).mem ((atEnd 0x6105).ip.toNat + 1)] = .ok (.ldImm 1 5, []) := by decide
theorem witness_FetchedWordIsBigEndian : (atEnd 0x6105).ip.toNat ≤ 4094 := by decide
theorem witness_FetchBeyondMemoryHalts : (atIp 0xFFF).halt = false ∧
    (atIp 0xFFF).wait = false ∧ 4094 < (atIp 0xFFF).ip.toNat := by decide
theorem witness_IllegalWordHaltsWithThatWord : (atEnd 0x800F).halt = false ∧ (atEnd 0x800F).wait = false ∧
    (atEnd 0x800F).ip.toNat ≤ 4094 ∧ decodeBytes [Memory.read (atEnd 0x800F).mem (atEnd 0x800F).ip.toNat,
      Memory.read (atEnd 0x800F).mem ((atEnd 0x800F).ip.toNat + 1)] = .reject .header8 := by decide
theorem witness_HaltedMachineNeverChanges : (base.raise (addressFault 0x1000)).halt = true := by decide

/-- Waiting in register 5. -/
def waiting (lines : Word) : State := { base with wait := true, wx := 5, keyQueue := [lines] }

theorem witness_WaitingMachinePollsTheKeypad_up : (waiting 0).halt = false ∧ (waiting 0).wait = true ∧
    (waiting 0).keySample = 0 := by decide
theorem witness_WaitingMachinePollsTheKeypad_down : (waiting 0x8000).halt = false ∧
    (waiting 0x8000).wait = true ∧ (waiting 0x8000).keySample ≠ 0 := by decide
theorem witness_TimersMoveOnlyInCompletedCycles_halted : base.div < 10 ∧
    ∃ t : State, step base = .next t ∧ t.halt = true := ⟨by decide, _, rfl, by decide⟩
theorem witness_TimersMoveOnlyInCompletedCycles_waiting : (waiting 0).div < 10 ∧
    ∃ t : State, step (waiting 0) = .next t ∧ t.wait = true := ⟨by decide, _, rfl, by decide⟩
theorem witness_TimersMoveOnlyInCompletedCycles_completed : ({ atEnd 0x6105 with div := 9 }).div < 10 ∧
    ∃ t : State, step { atEnd 0x6105 with div := 9 } = .next t ∧ t.halt = false ∧ t.wait = false :=
  ⟨by decide, _, rfl, by decide⟩

theorem base_inv : base.Inv where
  mem_wf := by decide
  sp_legal := ⟨0, by decide, by decide⟩
  div_lt := by decide
  pacer_le := by decide
  fault_iff_halt := by decide
  wait_not_halted := by decide
  wait_no_key := by decide

/-- The invariant holds with twelve calls pending, DIV = 9 and memory written. -/
theorem witness_StepKeepsTheInvariant :
    ({ atEnd 0x6105 with sp := 0xED0, div := 9 }).Inv ∧
      ∃ t : State, step { atEnd 0x6105 with sp := 0xED0, div := 9 } = .next t :=
  ⟨{ mem_wf := by decide
     sp_legal := ⟨12, by decide, by decide⟩
     div_lt := by decide
     pacer_le := by decide
     fault_iff_halt := by decide
     wait_not_halted := by decide
     wait_no_key := by decide }, _, rfl⟩

theorem witness_BootLoadsFontFillAndImage : (List.replicate 3584 (0x12 : Byte)).length ≤ 3584 := by
  rw [List.length_replicate]
theorem witness_OversizedImageIsRejected : 3584 < (List.replicate 3585 (0x12 : Byte)).length := by
  rw [List.length_replicate]; decide

theorem sp_bottom : spLegal 0xEA0 := ⟨0, by decide, by decide⟩
theorem sp_last_call : spLegal 0xECC := ⟨11, by decide, by decide⟩
theorem sp_one_call : spLegal 0xEA4 := ⟨1, by decide, by decide⟩
theorem sp_top : spLegal 0xED0 := ⟨12, by decide, by decide⟩

/-- What a faulting witness needs: SP legal, not halted before, halted after. -/
def Faults (i : Instr) (s : State) : Prop :=
  spLegal s.sp ∧ s.halt = false ∧ ∃ t : State, exec i s = .next t ∧ t.halt = true

theorem witness_FaultingInstruction_overflow : Faults (.call 0x300) (atSp 0xED0) :=
  ⟨sp_top, rfl, _, rfl, by decide⟩
theorem witness_FaultingInstruction_underflow : Faults .ret base := ⟨sp_bottom, rfl, _, rfl, by decide⟩
theorem witness_FaultingInstruction_address : Faults (.ldB 0) (atI 0xFFE) :=
  ⟨sp_bottom, rfl, _, rfl, by decide⟩
theorem witness_FaultingInstruction_frame :
    Faults .ret { withMem base 0xEA0 [0x00, 0x01, 0x00, 0x00] with sp := 0xEA4 } :=
  ⟨sp_one_call, rfl, _, rfl, by decide⟩
theorem witness_FaultingInstruction_key : Faults (.skp 0) (withRegs base [(0, 16)]) :=
  ⟨sp_bottom, rfl, _, rfl, by decide⟩

theorem witness_OnlyCallAndStoresWriteMemory : (∃ t : State, exec (.ldRegs 0xF) base = .next t) ∧
    (∀ nnn, Instr.ldRegs 0xF ≠ .call nnn) ∧ (∀ x, Instr.ldRegs 0xF ≠ .ldB x) ∧
    (∀ x, Instr.ldRegs 0xF ≠ .stRegs x) :=
  ⟨⟨_, rfl⟩, fun _ => nofun, fun _ => nofun, fun _ => nofun⟩

theorem witness_Elements_sp : ∃ t : State, exec (.call 0x300) base = .next t ∧ t.sp ≠ base.sp := ⟨_, rfl, by decide⟩
theorem witness_Elements_fb : ∃ t : State, exec (.drw 0 0 1) base = .next t ∧ t.fb ≠ base.fb := ⟨_, rfl, by decide⟩
theorem witness_Elements_i : ∃ t : State, exec (.ldI 1) base = .next t ∧ t.i ≠ base.i := ⟨_, rfl, by decide⟩
theorem witness_Elements_dt : ∃ t : State, exec (.ldDtVx 1) (withRegs base [(1, 1)]) = .next t ∧
    t.dt ≠ (withRegs base [(1, 1)]).dt := ⟨_, rfl, by decide⟩
theorem witness_Elements_st : ∃ t : State, exec (.ldStVx 1) (withRegs base [(1, 1)]) = .next t ∧
    t.st ≠ (withRegs base [(1, 1)]).st := ⟨_, rfl, by decide⟩
theorem witness_Elements_wait : ∃ t : State, exec (.ldVxK 5) base = .next t ∧
    (t.wait ≠ base.wait ∨ t.wx ≠ base.wx) := ⟨_, rfl, by decide⟩
theorem witness_Elements_rnd : ∃ t : State, exec (.rnd 3 0x0F) base = .next t ∧
    (t.rndQueue ≠ base.rndQueue ∨ t.rndDraws ≠ base.rndDraws) := ⟨_, rfl, by decide⟩

theorem witness_ImmediateSkips_equal : (withRegs base [(0xA, 0x7F)]).reg 0xA = 0x7F := by decide
theorem witness_ImmediateSkips_different : base.reg 0xA ≠ 0x7F := by decide

/-- What the call's statements assume. -/
def CanCall (s : State) : Prop := Memory.wf s.mem = true ∧ spLegal s.sp ∧ s.sp ≠ 0x0ED0

theorem witness_CallPushesTheReturnAddress_big : CanCall base ∧ base.params.frameOrder = .big :=
  ⟨⟨by decide, sp_bottom, by decide⟩, rfl⟩
theorem witness_CallPushesTheReturnAddress_little :
    CanCall { little with sp := 0xECC } ∧ little.params.frameOrder = .little :=
  ⟨⟨by decide, sp_last_call, by decide⟩, rfl⟩
theorem witness_StackLimitsFault : (atSp 0xED0).sp = 0x0ED0 ∧ base.sp = 0x0EA0 := by decide

/-- What the return's statement assumes of the frame below SP = 0xEA4. -/
def CanReturn (s : State) (v32 : Nat) : Prop :=
  spLegal s.sp ∧ s.sp ≠ 0x0EA0 ∧
  (s.params.frameOrder = .big → v32 =
    0x1000000 * (Memory.read s.mem (s.sp - 4)).toNat + 0x10000 * (Memory.read s.mem (s.sp - 3)).toNat +
    0x100 * (Memory.read s.mem (s.sp - 2)).toNat + (Memory.read s.mem (s.sp - 1)).toNat) ∧
  (s.params.frameOrder = .little → v32 =
    0x1000000 * (Memory.read s.mem (s.sp - 1)).toNat + 0x10000 * (Memory.read s.mem (s.sp - 2)).toNat +
    0x100 * (Memory.read s.mem (s.sp - 3)).toNat + (Memory.read s.mem (s.sp - 4)).toNat)

/-- The largest value a return accepts, and the smallest it does not. -/
theorem witness_ReturnPopsTheFrame_big :
    CanReturn { withMem base 0xEA0 [0x00, 0x00, 0xFF, 0xFF] with sp := 0xEA4 } 0xFFFF ∧ 0xFFFF < 0x10000 :=
  ⟨⟨sp_one_call, by decide, by decide, by decide⟩, by decide⟩
theorem witness_ReturnPopsTheFrame_big_fault :
    CanReturn { withMem base 0xEA0 [0x00, 0x01, 0x00, 0x00] with sp := 0xEA4 } 0x10000 ∧ 0x10000 ≤ 0x10000 :=
  ⟨⟨sp_one_call, by decide, by decide, by decide⟩, by decide⟩
theorem witness_ReturnPopsTheFrame_little :
    CanReturn { withMem little 0xEA0 [0x35, 0x12, 0x00, 0x00] with sp := 0xEA4 } 0x1235 ∧ 0x1235 < 0x10000 :=
  ⟨⟨sp_one_call, by decide, by decide, by decide⟩, by decide⟩

/-- The callee's return: the call's own next state meets what is asked of it. -/
theorem witness_CallThenReturnComesBack : CanCall (atSp 0xECC) ∧
    ∃ t t' : State, exec (.call 0x300) (atSp 0xECC) = .next t ∧ t'.sp = t.sp ∧ t'.params = t.params ∧
      ∀ k < 4, Memory.read t'.mem (0xECC + k) = Memory.read t.mem (0xECC + k) :=
  ⟨⟨by decide, sp_last_call, by decide⟩, _, _, rfl, rfl, rfl, fun _ _ => rfl⟩

/-- `x ≠ vf`, the premise of the flag clauses of the register statements. -/
theorem witness_not_flag_register : (0 : Reg) ≠ vf ∧ (0xE : Reg) ≠ vf := by decide

theorem witness_FrameOfPlainRegisterWrites :
    Instr.addImm 3 2 ∈ [.ldImm 3 2, .addImm 3 2, .ldReg 3 4, .orReg 3 4, .andReg 3 4, .xorReg 3 4, .ldVxDt 3] ∧
    ∃ t : State, exec (.addImm 3 2) base = .next t := ⟨by decide, _, rfl⟩
theorem witness_ShiftsMoveOneBitIntoTheFlag_x : (base.params.shiftSrc = .x → (0 : Byte) = base.reg 0) ∧
    (base.params.shiftSrc = .y → (0 : Byte) = base.reg 1) := by decide
theorem witness_ShiftsMoveOneBitIntoTheFlag_y :
    ((withRegs shiftY [(1, 0xFF)]).params.shiftSrc = .x → (0xFF : Byte) = (withRegs shiftY [(1, 0xFF)]).reg 0) ∧
    ((withRegs shiftY [(1, 0xFF)]).params.shiftSrc = .y → (0xFF : Byte) = (withRegs shiftY [(1, 0xFF)]).reg 1) := by
  decide
theorem witness_RandomByteIsMasked : base.rndQueue = 0xB7 :: [] := by decide

theorem witness_DecimalDigitsAreStored : Memory.wf (atI 0xFFD).mem = true ∧
    (atI 0xFFD).i.toNat + 2 ≤ 0xFFF := by decide
/-- The last place of a block of all sixteen registers, for the block statements. -/
theorem witness_RegisterBlock : Memory.wf (atI 0xFF0).mem = true ∧
    (atI 0xFF0).i.toNat + (0xF : Reg).val ≤ 0xFFF ∧ (0xF : Reg) ≤ 0xF := by decide
/-- A register above the block loaded. -/
theorem witness_RegisterBlockIsLoaded_above : (atI 0xFF1).i.toNat + (0xE : Reg).val ≤ 0xFFF ∧
    (0xE : Reg) < 0xF := by decide
theorem witness_DataAccessOutside_digits : 0xFFF < (atI 0xFFE).i.toNat + 2 := by decide
theorem witness_DataAccessOutside_block : 0xFFF < (atI 0xFFF).i.toNat + (1 : Reg).val := by decide
theorem witness_DataAccessOutside_rows : 1 ≤ 15 ∧ 0xFFF < (atI 0xFF2).i.toNat + 15 - 1 := by decide
theorem witness_StoredBlockIsLoadedBack : Memory.wf (atI 0xFFE).mem = true ∧
    (atI 0xFFE).i.toNat + (1 : Reg).val ≤ 0xFFF ∧
    ∃ t t' : State, exec (.stRegs 1) (atI 0xFFE) = .next t ∧ t'.i = (atI 0xFFE).i ∧
      t'.mem = t.mem := ⟨by decide, by decide, _, _, rfl, rfl, rfl⟩
theorem witness_StoreIsSeenByFetch : Memory.wf (atI 0x200).mem = true ∧
    (atI 0x200).i.toNat + (1 : Reg).val ≤ 0xFFF ∧ 0 + 1 ≤ (1 : Reg).val ∧
    ∃ t t' : State, exec (.stRegs 1) (atI 0x200) = .next t ∧ t'.mem = t.mem ∧
      t'.ip.toNat = (atI 0x200).i.toNat + 0 :=
  ⟨by decide, by decide, by decide, _, _, rfl, rfl, by decide⟩
theorem witness_MemoryPrimitives_inside : Memory.wf base.mem = true ∧
    (([1, 2] : List Byte) = [] ∨ 0xFFE + ([1, 2] : List Byte).length ≤ 0x1000) := by decide
theorem witness_MemoryPrimitives_outside : Memory.wf base.mem = true ∧
    ([1, 2] : List Byte) ≠ [] ∧ 0x1000 < 0xFFF + ([1, 2] : List Byte).length := by decide

theorem witness_DrawXorsTheSprite_no_rows : 0 ≤ 15 ∧ (0 = 0 ∨ (atI 0xFFFF).i.toNat + 0 ≤ 0x1000) := by
  decide
theorem witness_DrawXorsTheSprite_all_rows : 15 ≤ 15 ∧ (15 = 0 ∨ (atI 0xFF1).i.toNat + 15 ≤ 0x1000) ∧
    1 ≤ 15 := by decide
/-- A cell no pixel of the sprite at (0, 0) covers: column 8. -/
theorem witness_DrawXorsTheSprite_outside : ∀ r < 15, ∀ c < 8,
    ¬ (8 % 64 = ((base.reg 0).toNat + c) % 64 ∧ 0 % 32 = ((base.reg 0).toNat + r) % 32) := by decide
theorem witness_DrawingTwiceRestoresTheFramebuffer : 1 ≤ 15 ∧ 15 ≤ 15 ∧
    (atI 0xFF1).i.toNat + 15 ≤ 0x1000 ∧
    ∃ t t' : State, exec (.drw 0 1 15) (atI 0xFF1) = .next t ∧ t'.fb = t.fb ∧
      t'.i = (atI 0xFF1).i ∧ t'.mem = base.mem ∧ t'.reg 0 = base.reg 0 ∧ t'.reg 1 = base.reg 1 :=
  ⟨by decide, by decide, by decide, _, _, rfl, rfl, rfl, rfl, by decide, by decide⟩

theorem witness_KeySkips_line : ((withRegs base [(0, 15)]).reg 0).toNat ≤ 15 := by decide
theorem witness_KeySkips_no_line : 15 < ((withRegs base [(0, 16)]).reg 0).toNat := by decide
theorem witness_KeyWait_down : (withLatch 0x8000).k ≠ 0 := by decide
theorem witness_KeyWait_up : base.k = 0 := by decide
theorem witness_FrameOfSingleElementWrites :
    (∃ t : State, exec (.jpV0 0x300) base = .next t) ∧
    Instr.jpV0 0x300 ∈ [.jp 0x300, .jpV0 0x300, .seImm 0 0, .sneImm 0 0] ∧
    (∃ t : State, exec (.addI 0) base = .next t) ∧ Instr.addI 0 ∈ [.ldI 0x300, .addI 0, .ldF 0] ∧
    (∃ t : State, exec (.ldDtVx 0) base = .next t) ∧ (∃ t : State, exec (.ldStVx 0) base = .next t) ∧
    (∃ t : State, exec .cls base = .next t) :=
  ⟨⟨_, rfl⟩, by decide, ⟨_, rfl⟩, by decide, ⟨_, rfl⟩, ⟨_, rfl⟩, ⟨_, rfl⟩⟩
theorem witness_AdvanceClampsOrReloads : 0 < 1 := by decide
theorem witness_TimersCountTenthCycles : (atDiv 9).div < 10 ∧
    State.timerStep^[1] (atDiv 9) = (atDiv 9).timerStep := ⟨by decide, rfl⟩

end Sys2Proof.Tests
end

section
/-! SUPPORT. The immediate skips (41_control_flow.md R94, R95): each is one `skipIf`, so the fields of
`skipIf` say what it does and what it keeps. -/

namespace Sys2Proof.Machine

theorem exec_seImm (x : Reg) (nn : Byte) (s : State) :
    exec (.seImm x nn) s = .next (s.skipIf (s.reg x == nn)) := rfl

theorem exec_sneImm (x : Reg) (nn : Byte) (s : State) :
    exec (.sneImm x nn) s = .next (s.skipIf (s.reg x != nn)) := rfl

/-- A skip whose condition holds advances IP by the extra 2 (40_cycle.md R87). -/
theorem State.skipIf_ip_taken (s : State) {c : Bool} (h : c = true) : (s.skipIf c).ip = s.ip + 2 := by
  rw [State.skipIf_ip, if_pos h]

/-- A skip whose condition fails leaves IP where fetch put it. -/
theorem State.skipIf_ip_not_taken (s : State) {c : Bool} (h : c = false) : (s.skipIf c).ip = s.ip := by
  rw [State.skipIf_ip, if_neg (by simp [h])]

/-- Settles O26: both instructions are a `skipIf`, on the comparison of V[X] with NN and on its
negation, and `skipIf` writes IP only. -/
theorem immediateSkips : Obligations.ImmediateSkips := by
  intro x nn s
  constructor
  · exact ⟨_, exec_seImm x nn s, fun heq => s.skipIf_ip_taken (beq_iff_eq.mpr heq),
      fun hne => s.skipIf_ip_not_taken (beq_eq_false_iff_ne.mpr hne), s.skipIf_v _, s.skipIf_halt _⟩
  · exact ⟨_, exec_sneImm x nn s, fun hne => s.skipIf_ip_taken (bne_iff_ne.mpr hne),
      fun heq => s.skipIf_ip_not_taken (bne_eq_false_iff_eq.mpr heq), s.skipIf_v _, s.skipIf_halt _⟩

end Sys2Proof.Machine
end

section
/-! SUPPORT. The immediate load and addition (42_alu.md R110, R111): each is one `setReg`, so the rules
of `setReg` say what it does and what it keeps. -/

namespace Sys2Proof.Machine

theorem exec_ldImm (x : Reg) (nn : Byte) (s : State) :
    exec (.ldImm x nn) s = .next (s.setReg x nn) := rfl

theorem exec_addImm (x : Reg) (nn : Byte) (s : State) :
    exec (.addImm x nn) s = .next (s.setReg x (s.reg x + nn)) := rfl

/-- VF is kept by a write to another register: no flag is written beside it (42_alu.md R111). -/
theorem State.setReg_reg_vf (s : State) {x : Reg} (b : Byte) (h : x ≠ vf) :
    (s.setReg x b).reg vf = s.reg vf := s.reg_setReg_ne b h.symm

/-- Settles O32: both instructions are one `setReg` of V[X], whose byte is NN or the sum of V[X] and
NN; the sum of two bytes wraps modulo 256, and a `setReg` of X keeps every other register. -/
theorem immediateLoadAndAdd : Obligations.ImmediateLoadAndAdd := by
  intro x nn s
  constructor
  · exact ⟨_, exec_ldImm x nn s, s.reg_setReg_self x nn, s.setReg_reg_vf nn, s.setReg_halt x nn⟩
  · have hsum : ((s.setReg x (s.reg x + nn)).reg x).toNat = ((s.reg x).toNat + nn.toNat) % 256 := by
      rw [State.reg_setReg_self, BitVec.toNat_add]
    exact ⟨_, exec_addImm x nn s, hsum, s.setReg_reg_vf _, s.setReg_halt x _⟩

end Sys2Proof.Machine
end

section
/-! SUPPORT. The clear (44_display.md R140, R143): `00E0` writes the framebuffer and nothing else. -/

namespace Sys2Proof.Machine

theorem exec_cls (s : State) : exec .cls s = .next { s with fb := Framebuffer.clear } := rfl

/-- Settles O46: the next state differs from `s` in its framebuffer only, and every cell of the cleared
framebuffer is 0. -/
theorem clearScreenZeroesEveryCell : Obligations.ClearScreenZeroesEveryCell := fun s =>
  ⟨_, exec_cls s, Framebuffer.cell_clear, rfl, rfl, rfl⟩

end Sys2Proof.Machine
end

section
/-! SUPPORT. The timer moves (45_keypad_timers.md R153, R154, R155): `FX07` is one `setReg`, `FX15` and
`FX18` each write one timer and nothing else. -/

namespace Sys2Proof.Machine

theorem exec_ldVxDt (x : Reg) (s : State) : exec (.ldVxDt x) s = .next (s.setReg x s.dt) := rfl

theorem exec_ldDtVx (x : Reg) (s : State) : exec (.ldDtVx x) s = .next { s with dt := s.reg x } := rfl

theorem exec_ldStVx (x : Reg) (s : State) : exec (.ldStVx x) s = .next { s with st := s.reg x } := rfl

/-- Settles O52: `FX07` is the `setReg` of DT, which keeps DT and every other register; `FX15` and
`FX18` write one timer field, so the divider, the registers and HALT are those of `s`. -/
theorem timerRegisterMoves : Obligations.TimerRegisterMoves := by
  intro x s
  refine ⟨?readDt, ?writeDt, ?writeSt⟩
  case readDt =>
    exact ⟨_, exec_ldVxDt x s, s.reg_setReg_self x s.dt, s.setReg_dt x s.dt, s.setReg_reg_vf s.dt,
      s.setReg_halt x s.dt⟩
  case writeDt => exact ⟨_, exec_ldDtVx x s, rfl, rfl, rfl, rfl⟩
  case writeSt => exact ⟨_, exec_ldStVx x s, rfl, rfl, rfl⟩

end Sys2Proof.Machine
end

section
/-! SUPPORT. The timer primitive (60_exceptions.md R174): what one advance does in each of its branches,
the counter walking down to zero, and the two continuations from there: the clamp and the reload. -/

namespace Sys2Proof.Machine

/-- Above zero an advance decrements, with or without auto-reset. -/
theorem advance_of_pos {c : Nat} (h : 0 < c) (start : Nat) (auto : Bool) :
    advance c start auto = c - 1 := if_pos h

theorem advance_zero_auto (start : Nat) : advance 0 start true = start := rfl

/-- Without auto-reset an advance is the truncated decrement. -/
theorem advance_clamp (c start : Nat) : advance c start false = c - 1 := by
  cases c with
  | zero => rfl
  | succ c => exact advance_of_pos c.succ_pos start false

theorem advance_iterate_clamp (c start n : Nat) :
    (fun a => advance a start false)^[n] c = c - n := by
  induction n with
  | zero => rfl
  | succ n ih => rw [Function.iterate_succ_apply', ih, advance_clamp, Nat.sub_sub]

/-- Down to zero the reload does not show: the counter passes through `c, ..., 1, 0`. -/
theorem advance_iterate_auto_of_le (c start : Nat) {n : Nat} (h : n ≤ c) :
    (fun a => advance a start true)^[n] c = c - n := by
  induction n with
  | zero => rfl
  | succ n ih =>
    rw [Function.iterate_succ_apply', ih (by omega), advance_of_pos (by omega), Nat.sub_sub]

/-- From `start` the counter is back at `start` after `start + 1` advances: `start` of them reach zero
and one more reloads. -/
theorem advance_auto_isPeriodicPt (start : Nat) :
    Function.IsPeriodicPt (fun a => advance a start true) (start + 1) start := by
  have toZero : (fun a => advance a start true)^[start] start = 0 := by
    rw [advance_iterate_auto_of_le start start le_rfl, Nat.sub_self]
  change (fun a => advance a start true)^[start + 1] start = start
  rw [Function.iterate_succ_apply', toZero, advance_zero_auto]

/-- Settles O54: with auto-reset only the advances past the last full period count, and these are at
most `start`, so they walk down from `start`. -/
theorem advanceClampsOrReloads : Obligations.AdvanceClampsOrReloads := by
  intro c start n auto
  refine ⟨fun h => advance_of_pos h start auto, advance_zero_auto start,
    advance_iterate_clamp c start n, ?reload⟩
  case reload =>
    have withinPeriod : n % (start + 1) ≤ start := Nat.le_of_lt_succ (Nat.mod_lt n start.succ_pos)
    rw [← (advance_auto_isPeriodicPt start).iterate_mod_apply n,
      advance_iterate_auto_of_le start start withinPeriod]

end Sys2Proof.Machine
end

section
/-! SUPPORT. The decoder reads an encoded word back (30_encoding.md sections 1, 5, 6): format by format,
the header selects the arm and the fields are the operands the word was made of. -/

namespace Sys2Proof

/-- Two bytes in memory order decode as the word they make, whatever follows them. -/
theorem decodeBytes_bytesOfWord {w : Word} {i : Instr} (h : decodeWord w = .ok i) (rest : List Byte) :
    decodeBytes (bytesOfWord w ++ rest) = .ok (i, rest) := by
  simp only [bytesOfWord, List.cons_append, List.nil_append, decodeBytes, wordOfBytes_bytesOfWord, h]

theorem decodeWord_encode {i : Instr} (h : i.wf = true) : decodeWord (encode i) = .ok i := by
  cases i with
  | cls | ret => rfl
  | jp nnn | call nnn | ldI nnn | jpV0 nnn =>
    simp [encode, decodeWord, header_encodeA, fieldNNN_encodeA]
  | seImm x nn | sneImm x nn | ldImm x nn | addImm x nn | rnd x nn =>
    simp [encode, decodeWord, header_encodeI, fieldX_encodeI, fieldNN_encodeI]
  | seReg x y =>
    simp [encode, decodeWord, decodeHeader5, header_encodeR, fieldX_encodeR, fieldY_encodeR, fieldN_encodeR]
  | ldReg x y | orReg x y | andReg x y | xorReg x y | addReg x y | subReg x y | shrReg x y
  | subnReg x y | shlReg x y =>
    simp [encode, decodeWord, decodeHeader8, header_encodeR, fieldX_encodeR, fieldY_encodeR, fieldN_encodeR]
  | sneReg x y =>
    simp [encode, decodeWord, decodeHeader9, header_encodeR, fieldX_encodeR, fieldY_encodeR, fieldN_encodeR]
  | drw x y n =>
    have hn : n < 16 := by simpa [Instr.wf, rowCountFits] using h
    simp [encode, decodeWord, header_encodeR, fieldX_encodeR, fieldY_encodeR, fieldN_encodeR, hn]
  | skp x | sknp x =>
    simp [encode, decodeWord, decodeHeaderE, header_encodeU, fieldX_encodeU, lowByte_encodeU]
  | ldVxDt x | ldVxK x | ldDtVx x | ldStVx x | addI x | ldF x | ldB x | stRegs x | ldRegs x =>
    simp [encode, decodeWord, decodeHeaderF, header_encodeU, fieldX_encodeU, lowByte_encodeU]

/-- Settles O1: the word is read back format by format, and the bytes are those of the word. -/
theorem decodeOfEncodeIsIdentity : Obligations.DecodeOfEncodeIsIdentity := fun _ rest h =>
  ⟨decodeWord_encode h, decodeBytes_bytesOfWord (decodeWord_encode h) rest⟩

end Sys2Proof
end

section
/-! SUPPORT. The encoder gives back the word the decoder read (30_encoding.md R74): in each format the
header and the fields together are all 16 bits of the word. -/

namespace Sys2Proof

theorem header_lt (w : Word) : header w < 16 := field_lt w 0 4
theorem fieldN_lt (w : Word) : fieldN w < 16 := field_lt w 12 4
theorem lowByte_lt (w : Word) : field w 8 8 < 256 := field_lt w 8 8

/-! ### A word is its header and its fields -/

theorem encodeA_fields {w : Word} {op : Nat} (h : header w = op) : encodeA op (fieldNNN w) = w := by
  have := w.isLt
  apply BitVec.eq_of_toNat_eq
  simp [← h, encodeA, header, fieldNNN, field]; omega

theorem encodeI_fields {w : Word} {op : Nat} (h : header w = op) : encodeI op (fieldX w) (fieldNN w) = w := by
  have := w.isLt
  apply BitVec.eq_of_toNat_eq
  simp [← h, encodeI, header, fieldX, fieldNN, field]; omega

theorem encodeR_fields {w : Word} {op n : Nat} (h : header w = op) (hn : fieldN w = n) :
    encodeR op (fieldX w) (fieldY w) n = w := by
  have := w.isLt
  apply BitVec.eq_of_toNat_eq
  simp [← h, ← hn, encodeR, header, fieldX, fieldY, fieldN, field]; omega

theorem encodeU_fields {w : Word} {op fn : Nat} (h : header w = op) (hf : field w 8 8 = fn) :
    encodeU op (fieldX w) fn = w := by
  have := w.isLt
  apply BitVec.eq_of_toNat_eq
  simp [← h, ← hf, encodeU, header, fieldX, field]; omega

/-! ### The sub-dispatches -/

/-- `i` is a well-formed reading of `w`: no bit of the word is lost in it. -/
def ReadFrom (w : Word) (i : Instr) : Prop := i.wf = true ∧ encode i = w

theorem decodeHeader0_ok {w : Word} {i : Instr} (h : decodeHeader0 w = .ok i) : ReadFrom w i := by
  unfold decodeHeader0 at h
  split at h
  next hw => cases h; exact ⟨rfl, BitVec.eq_of_toNat_eq hw.symm⟩
  next =>
    split at h
    next hw => cases h; exact ⟨rfl, BitVec.eq_of_toNat_eq hw.symm⟩
    next => cases h

theorem decodeHeader5_ok {w : Word} {i : Instr} (hw : header w = 5) (h : decodeHeader5 w = .ok i) :
    ReadFrom w i := by
  unfold decodeHeader5 at h
  split at h
  next hn => cases h; exact ⟨rfl, encodeR_fields hw hn⟩
  next => cases h

theorem decodeHeader8_ok {w : Word} {i : Instr} (hw : header w = 8) (h : decodeHeader8 w = .ok i) :
    ReadFrom w i := by
  unfold decodeHeader8 at h
  split at h
  all_goals cases h
  all_goals exact ⟨rfl, encodeR_fields hw ‹_›⟩

theorem decodeHeader9_ok {w : Word} {i : Instr} (hw : header w = 9) (h : decodeHeader9 w = .ok i) :
    ReadFrom w i := by
  unfold decodeHeader9 at h
  split at h
  next hn => cases h; exact ⟨rfl, encodeR_fields hw hn⟩
  next => cases h

theorem decodeHeaderE_ok {w : Word} {i : Instr} (hw : header w = 14) (h : decodeHeaderE w = .ok i) :
    ReadFrom w i := by
  unfold decodeHeaderE at h
  split at h
  all_goals cases h
  all_goals exact ⟨rfl, encodeU_fields hw ‹_›⟩

theorem decodeHeaderF_ok {w : Word} {i : Instr} (hw : header w = 15) (h : decodeHeaderF w = .ok i) :
    ReadFrom w i := by
  unfold decodeHeaderF at h
  split at h
  all_goals cases h
  all_goals exact ⟨rfl, encodeU_fields hw ‹_›⟩

theorem decodeWord_ok {w : Word} {i : Instr} (h : decodeWord w = .ok i) : ReadFrom w i := by
  have hlt := header_lt w
  unfold decodeWord at h
  split at h
  case h_1 => exact decodeHeader0_ok h
  case h_6 hw => exact decodeHeader5_ok hw h
  case h_9 hw => exact decodeHeader8_ok hw h
  case h_10 hw => exact decodeHeader9_ok hw h
  case h_14 hw => cases h; exact ⟨decide_eq_true (fieldN_lt w), encodeR_fields hw rfl⟩
  case h_15 hw => exact decodeHeaderE_ok hw h
  case h_16 => exact decodeHeaderF_ok (by grind) h
  case h_2 hw | h_3 hw | h_11 hw | h_12 hw => cases h; exact ⟨rfl, encodeA_fields hw⟩
  all_goals cases h; exact ⟨rfl, encodeI_fields ‹_›⟩

/-- Settles O2: whichever arm of the dispatch answers, its operands are fields of the word. -/
theorem encodeOfDecodeIsIdentity : Obligations.EncodeOfDecodeIsIdentity := fun _ _ h => decodeWord_ok h

end Sys2Proof
end

section
/-! SUPPORT. The opcode map (30_encoding.md R66): a mask of the map keeps the header and some number of
low bits, so a row's match fixes the header and the low nibble or the low byte. -/

namespace Sys2Proof

/-- A mask of the header and the low `k` bits keeps exactly these. -/
theorem toNat_and_headerMask (w : Word) {k : Nat} (hk : k ≤ 12) :
    w.toNat &&& (0xF000 + (2 ^ k - 1)) = 0x1000 * header w + w.toNat % 2 ^ k := by
  have hpow : 2 ^ k ≤ 2 ^ 12 := Nat.pow_le_pow_right (by decide) hk
  have hpos : 0 < 2 ^ k := Nat.two_pow_pos k
  have high : (w.toNat &&& (0xF000 + (2 ^ k - 1))) / 2 ^ 12 = header w := by
    rw [Nat.and_div_two_pow, show (0xF000 + (2 ^ k - 1)) / 2 ^ 12 = 2 ^ 4 - 1 by omega,
      Nat.and_two_pow_sub_one_eq_mod]
    rfl
  have low : (w.toNat &&& (0xF000 + (2 ^ k - 1))) % 2 ^ 12 = w.toNat % 2 ^ k := by
    rw [Nat.and_mod_two_pow, show (0xF000 + (2 ^ k - 1)) % 2 ^ 12 = 2 ^ k - 1 by omega,
      Nat.and_two_pow_sub_one_eq_mod, Nat.mod_mod_of_dvd _ (Nat.pow_dvd_pow 2 hk)]
  omega

theorem and_maskE (w : Word) : w &&& 0xFFFF = w := BitVec.and_allOnes

theorem toNat_and_maskA (w : Word) : (w &&& 0xF000).toNat = 0x1000 * header w := by
  simpa [Nat.mod_one] using toNat_and_headerMask w (k := 0) (by decide)

theorem toNat_and_maskR (w : Word) : (w &&& 0xF00F).toNat = 0x1000 * header w + fieldN w := by
  simpa [fieldN, field] using toNat_and_headerMask w (k := 4) (by decide)

theorem toNat_and_maskU (w : Word) : (w &&& 0xF0FF).toNat = 0x1000 * header w + field w 8 8 := by
  simpa [field] using toNat_and_headerMask w (k := 8) (by decide)

/-! ### What a row's match says of the word -/

theorem header_of_matchA {w b : Word} (h : w &&& 0xF000 = b) : header w = b.toNat / 0x1000 := by
  have := toNat_and_maskA w
  rw [h] at this; omega

theorem fields_of_matchR {w b : Word} (h : w &&& 0xF00F = b) :
    header w = b.toNat / 0x1000 ∧ fieldN w = b.toNat % 0x10 := by
  have hsum := toNat_and_maskR w
  have := fieldN_lt w
  rw [h] at hsum; omega

theorem fields_of_matchU {w b : Word} (h : w &&& 0xF0FF = b) :
    header w = b.toNat / 0x1000 ∧ field w 8 8 = b.toNat % 0x100 := by
  have hsum := toNat_and_maskU w
  have := lowByte_lt w
  rw [h] at hsum; omega

/-! ### The two directions -/

theorem encode_and_mask {i : Instr} (hwf : i.wf = true) :
    encode i &&& (opcodeRow i.rowNumber).mask = (opcodeRow i.rowNumber).bits := by
  cases i with
  | cls | ret => rfl
  | jp nnn | call nnn | ldI nnn | jpV0 nnn =>
    exact BitVec.eq_of_toNat_eq ((toNat_and_maskA _).trans (by
      rw [encode, header_encodeA (by decide)]; rfl))
  | seImm x nn | sneImm x nn | ldImm x nn | addImm x nn | rnd x nn =>
    exact BitVec.eq_of_toNat_eq ((toNat_and_maskA _).trans (by
      rw [encode, header_encodeI (by decide)]; rfl))
  | drw x y n =>
    have hn : n < 16 := by simpa [Instr.wf, rowCountFits] using hwf
    exact BitVec.eq_of_toNat_eq ((toNat_and_maskA _).trans (by
      rw [encode, header_encodeR (by decide) x y hn]; rfl))
  | seReg x y | sneReg x y | ldReg x y | orReg x y | andReg x y | xorReg x y | addReg x y
  | subReg x y | shrReg x y | subnReg x y | shlReg x y =>
    exact BitVec.eq_of_toNat_eq ((toNat_and_maskR _).trans (by
      rw [encode, header_encodeR (by decide) x y (by decide), fieldN_encodeR _ x y (by decide)]; rfl))
  | skp x | sknp x | ldVxDt x | ldVxK x | ldDtVx x | ldStVx x | addI x | ldF x | ldB x
  | stRegs x | ldRegs x =>
    exact BitVec.eq_of_toNat_eq ((toNat_and_maskU _).trans (by
      rw [encode, header_encodeU (by decide) x (by decide), lowByte_encodeU _ x (by decide)]; rfl))

theorem decodeWord_of_match {w : Word} (n : Fin 34) (h : w &&& (opcodeRow n).mask = (opcodeRow n).bits) :
    ∃ i, decodeWord w = .ok i ∧ i.rowNumber = n := by
  have hrows : opcodeRows = opcodeRowsLow ++ opcodeRowsAlu ++ opcodeRowsHigh := rfl
  simp only [opcodeRowsLow, opcodeRowsAlu, opcodeRowsHigh, List.cons_append, List.nil_append] at hrows
  match n with
  | 0 | 1 =>
    have hw : w = _ := (and_maskE w).symm.trans h
    rw [hw]; exact ⟨_, rfl, rfl⟩
  | 2 | 3 | 4 | 5 | 7 | 8 | 19 | 20 | 21 | 22 =>
    have hw := header_of_matchA h
    simp [decodeWord, hw, opcodeRow, hrows, Instr.rowNumber]
  | 6 | 9 | 10 | 11 | 12 | 13 | 14 | 15 | 16 | 17 | 18 =>
    obtain ⟨hw, hn⟩ := fields_of_matchR h
    simp [decodeWord, decodeHeader5, decodeHeader8, decodeHeader9, hw, hn, opcodeRow, hrows, Instr.rowNumber]
  | 23 | 24 | 25 | 26 | 27 | 28 | 29 | 30 | 31 | 32 | 33 =>
    obtain ⟨hw, hf⟩ := fields_of_matchU h
    simp [decodeWord, decodeHeaderE, decodeHeaderF, hw, hf, opcodeRow, hrows, Instr.rowNumber]
  | ⟨n + 34, hn⟩ => omega

/-- Settles O3: a decoded instruction's own word matches its row; a match fixes what the decoder
dispatches on. -/
theorem decodingFollowsTheOpcodeMap : Obligations.DecodingFollowsTheOpcodeMap := by
  intro w n
  constructor
  · rintro ⟨i, hdecode, rfl⟩
    obtain ⟨hwf, rfl⟩ := decodeWord_ok hdecode
    exact encode_and_mask hwf
  · exact decodeWord_of_match n

end Sys2Proof
end

section
/-! SUPPORT. The rejected words (30_encoding.md R68, R69): ten headers accept every word, and each of the
other six rejects exactly where its sub-dispatch finds no case. -/

namespace Sys2Proof

/-- The decoder rejects `w`, whatever the name of the rejection. -/
def Rejected (d : Decoded Instr) : Prop := ∃ r, d = .reject r

@[simp] theorem not_rejected_ok (i : Instr) : ¬ Rejected (.ok i) := nofun
@[simp] theorem rejected_reject (r : DecodeReject) : Rejected (.reject r) := ⟨r, rfl⟩

theorem decodeHeader0_rejected (w : Word) : Rejected (decodeHeader0 w) ↔ w ≠ 0x00E0 ∧ w ≠ 0x00EE := by
  have hcls : w = 0x00E0 ↔ w.toNat = 0x00E0 := BitVec.toNat_inj.symm
  have hret : w = 0x00EE ↔ w.toNat = 0x00EE := BitVec.toNat_inj.symm
  rw [Ne, Ne, hcls, hret, decodeHeader0]
  by_cases h1 : w.toNat = 0x00E0
  · simp [h1]
  · by_cases h2 : w.toNat = 0x00EE <;> simp [h1, h2]

theorem decodeHeader5_rejected (w : Word) : Rejected (decodeHeader5 w) ↔ fieldN w ≠ 0 := by
  unfold decodeHeader5
  by_cases h : fieldN w = 0 <;> simp [h]

theorem decodeHeader9_rejected (w : Word) : Rejected (decodeHeader9 w) ↔ fieldN w ≠ 0 := by
  unfold decodeHeader9
  by_cases h : fieldN w = 0 <;> simp [h]

theorem decodeHeader8_rejected (w : Word) :
    Rejected (decodeHeader8 w) ↔ fieldN w ∈ [0x8, 0x9, 0xA, 0xB, 0xC, 0xD, 0xF] := by
  have hlt := fieldN_lt w
  unfold decodeHeader8
  generalize fieldN w = n at hlt ⊢
  interval_cases n <;> simp

/-- The low byte as a byte and as the number the decoder dispatches on. -/
theorem fieldNN_eq_iff (w : Word) (b : Byte) : fieldNN w = b ↔ field w 8 8 = b.toNat := by
  rw [← BitVec.toNat_inj, fieldNN, BitVec.toNat_ofNat, Nat.mod_eq_of_lt (lowByte_lt w)]

theorem decodeHeaderE_rejected (w : Word) :
    Rejected (decodeHeaderE w) ↔ fieldNN w ≠ 0x9E ∧ fieldNN w ≠ 0xA1 := by
  simp only [ne_eq, fieldNN_eq_iff]
  unfold decodeHeaderE
  split <;> simp_all

theorem decodeHeaderF_rejected (w : Word) : Rejected (decodeHeaderF w) ↔
    fieldNN w ∉ [0x07, 0x0A, 0x15, 0x18, 0x1E, 0x29, 0x33, 0x55, 0x65] := by
  simp only [List.mem_cons, List.not_mem_nil, or_false, fieldNN_eq_iff]
  unfold decodeHeaderF
  split <;> simp_all

/-- Settles O4: header by header, the sub-dispatch's rejections. -/
theorem rejectedWordsByHeader : Obligations.RejectedWordsByHeader := by
  intro w
  change Rejected (decodeWord w) ↔ _
  have hlt := header_lt w
  unfold decodeWord
  generalize header w = op at hlt ⊢
  interval_cases op <;> simp [decodeHeader0_rejected, decodeHeader5_rejected, decodeHeader8_rejected,
    decodeHeader9_rejected, decodeHeaderE_rejected, decodeHeaderF_rejected]

/-- Settles O5: each word is decoded by evaluation. -/
theorem writtenOutWordsDecode : Obligations.WrittenOutWordsDecode := by
  unfold Obligations.WrittenOutWordsDecode
  decide

end Sys2Proof
end

section
/-! SUPPORT. The assembler (30_encoding.md R72, R74): which operand lists each form accepts, and the
instruction it makes of them. -/

namespace Sys2Proof.Machine

/-! ### Numbers in the place of a field -/

theorem asmByte_toNat (nn : Byte) (f : Byte → Instr) : asmByte nn.toNat f = some (f nn) := by
  rw [asmByte, if_pos nn.isLt, BitVec.ofNat_toNat, BitVec.setWidth_eq]

theorem asmAddr_toNat (nnn : Addr12) (f : Addr12 → Instr) : asmAddr nnn.toNat f = some (f nnn) := by
  rw [asmAddr, if_pos nnn.isLt, BitVec.ofNat_toNat, BitVec.setWidth_eq]

/-- A number that is accepted is the value of the byte it becomes. -/
theorem asmByte_eq_some {n : Nat} {f : Byte → Instr} {i : Instr} (h : asmByte n f = some i) :
    ∃ nn : Byte, n = nn.toNat ∧ i = f nn := by
  unfold asmByte at h
  split at h
  next hn => cases h; exact ⟨BitVec.ofNat 8 n, (Nat.mod_eq_of_lt hn).symm, rfl⟩
  next => cases h

theorem asmAddr_eq_some {n : Nat} {f : Addr12 → Instr} {i : Instr} (h : asmAddr n f = some i) :
    ∃ nnn : Addr12, n = nnn.toNat ∧ i = f nnn := by
  unfold asmAddr at h
  split at h
  next hn => cases h; exact ⟨BitVec.ofNat 12 n, (Nat.mod_eq_of_lt hn).symm, rfl⟩
  next => cases h

/-! ### The operand forms -/

theorem assembleRegs_eq_some {f : Reg → Reg → Instr} {ops : List AsmOperand} {i : Instr}
    (h : assembleRegs f ops = some i) : ∃ x y, ops = [.v x, .v y] ∧ i = f x y := by
  unfold assembleRegs at h
  split at h <;> cases h
  exact ⟨_, _, rfl, rfl⟩

theorem assembleReg_eq_some {f : Reg → Instr} {ops : List AsmOperand} {i : Instr}
    (h : assembleReg f ops = some i) : ∃ x, ops = [.v x] ∧ i = f x := by
  unfold assembleReg at h
  split at h <;> cases h
  exact ⟨_, rfl, rfl⟩

theorem assembleShift_eq_some {f : Reg → Reg → Instr} {ops : List AsmOperand} {i : Instr}
    (h : assembleShift f ops = some i) :
    (∃ x y, ops = [.v x, .v y] ∧ i = f x y) ∨ ∃ x, ops = [.v x] ∧ i = f x 0 := by
  unfold assembleShift at h
  split at h <;> cases h
  · exact .inl ⟨_, _, rfl, rfl⟩
  · exact .inr ⟨_, rfl, rfl⟩

theorem assembleSkip_eq_some {byte : Reg → Byte → Instr} {reg : Reg → Reg → Instr}
    {ops : List AsmOperand} {i : Instr} (h : assembleSkip byte reg ops = some i) :
    (∃ x nn, ops = [.v x, .num nn.toNat] ∧ i = byte x nn) ∨ ∃ x y, ops = [.v x, .v y] ∧ i = reg x y := by
  unfold assembleSkip at h
  split at h
  · obtain ⟨nn, rfl, rfl⟩ := asmByte_eq_some h
    exact .inl ⟨_, _, rfl, rfl⟩
  · cases h; exact .inr ⟨_, _, rfl, rfl⟩
  · cases h

/-- What O6 says of one line: its instruction is well-formed and has this line only. -/
def OnlyLine (m : Mnemonic) (ops : List AsmOperand) (i : Instr) : Prop :=
  i.wf = true ∧ disassemble i = (m, ops)

theorem assembleLd_onlyLine {ops : List AsmOperand} {i : Instr} (h : assembleLd ops = some i) :
    OnlyLine .ld ops i := by
  unfold assembleLd at h
  split at h
  case h_1 => obtain ⟨nn, rfl, rfl⟩ := asmByte_eq_some h; exact ⟨rfl, rfl⟩
  case h_3 => obtain ⟨nnn, rfl, rfl⟩ := asmAddr_eq_some h; exact ⟨rfl, rfl⟩
  case h_12 => cases h
  all_goals cases h; exact ⟨rfl, rfl⟩

theorem assembleAdd_onlyLine {ops : List AsmOperand} {i : Instr} (h : assembleAdd ops = some i) :
    OnlyLine .add ops i := by
  unfold assembleAdd at h
  split at h
  case h_1 => obtain ⟨nn, rfl, rfl⟩ := asmByte_eq_some h; exact ⟨rfl, rfl⟩
  case h_4 => cases h
  all_goals cases h; exact ⟨rfl, rfl⟩

theorem assembleJp_onlyLine {ops : List AsmOperand} {i : Instr} (h : assembleJp ops = some i) :
    OnlyLine .jp ops i := by
  unfold assembleJp at h
  split at h
  case h_1 => obtain ⟨nnn, rfl, rfl⟩ := asmAddr_eq_some h; exact ⟨rfl, rfl⟩
  case h_2 =>
    split at h
    next hr => obtain ⟨nnn, rfl, rfl⟩ := asmAddr_eq_some h; subst hr; exact ⟨rfl, rfl⟩
    next => cases h
  case h_3 => cases h

/-- A line of any mnemonic but the shifts is its instruction's only one. -/
theorem assembleOp_onlyLine {m : Mnemonic} {ops : List AsmOperand} {i : Instr}
    (h : assembleOp m ops = some i) (hshr : m ≠ .shr) (hshl : m ≠ .shl) : OnlyLine m ops i := by
  cases m with
  | shr => exact absurd rfl hshr
  | shl => exact absurd rfl hshl
  | ld => exact assembleLd_onlyLine h
  | add => exact assembleAdd_onlyLine h
  | jp => exact assembleJp_onlyLine h
  | cls | ret =>
    simp only [assembleOp] at h
    split at h
    next hops => cases h; subst hops; exact ⟨rfl, rfl⟩
    next => cases h
  | call =>
    simp only [assembleOp] at h
    split at h
    · obtain ⟨nnn, rfl, rfl⟩ := asmAddr_eq_some h; exact ⟨rfl, rfl⟩
    · cases h
  | se | sne =>
    obtain ⟨x, nn, rfl, rfl⟩ | ⟨x, y, rfl, rfl⟩ := assembleSkip_eq_some h <;> exact ⟨rfl, rfl⟩
  | or | and | xor | sub | subn => obtain ⟨x, y, rfl, rfl⟩ := assembleRegs_eq_some h; exact ⟨rfl, rfl⟩
  | skp | sknp => obtain ⟨x, rfl, rfl⟩ := assembleReg_eq_some h; exact ⟨rfl, rfl⟩
  | rnd =>
    simp only [assembleOp] at h
    split at h
    · obtain ⟨nn, rfl, rfl⟩ := asmByte_eq_some h; exact ⟨rfl, rfl⟩
    · cases h
  | drw =>
    simp only [assembleOp] at h
    split at h
    · split at h
      next hn => cases h; exact ⟨decide_eq_true hn, rfl⟩
      next => cases h
    · cases h

theorem assembleOp_disassemble {i : Instr} (h : i.wf = true) :
    assembleOp (disassemble i).1 (disassemble i).2 = some i := by
  cases i with
  | jp nnn | call nnn | ldI nnn | jpV0 nnn => exact asmAddr_toNat nnn _
  | seImm x nn | sneImm x nn | ldImm x nn | addImm x nn | rnd x nn => exact asmByte_toNat nn _
  | drw x y n => exact if_pos (of_decide_eq_true h)
  | _ => rfl

/-- Settles O6: an instruction's line assembles to it; a line that assembles is one of the forms, and
only a shift has a second, shorter one. -/
theorem assemblyIsUnique : Obligations.AssemblyIsUnique := by
  refine ⟨fun i => assembleOp_disassemble, fun m ops i h => ?lines⟩
  by_cases hshr : m = .shr
  · subst hshr
    obtain ⟨x, y, rfl, rfl⟩ | ⟨x, rfl, rfl⟩ := assembleShift_eq_some h
    · exact ⟨rfl, .inl rfl⟩
    · exact ⟨rfl, .inr ⟨x, rfl, .inl ⟨rfl, rfl⟩⟩⟩
  by_cases hshl : m = .shl
  · subst hshl
    obtain ⟨x, y, rfl, rfl⟩ | ⟨x, rfl, rfl⟩ := assembleShift_eq_some h
    · exact ⟨rfl, .inl rfl⟩
    · exact ⟨rfl, .inr ⟨x, rfl, .inr ⟨rfl, rfl⟩⟩⟩
  obtain ⟨hwf, hline⟩ := assembleOp_onlyLine h hshr hshl
  exact ⟨hwf, .inl hline⟩

end Sys2Proof.Machine
end

section
/-! SUPPORT. What an instruction leaves unchanged, read off its shape (00_scope.md R8): the elements no
instruction writes, and the elements only some write. -/

namespace Sys2Proof.Machine

/-- An instruction that takes no fault leaves HALT and the record as they were. -/
theorem ExecShape.halt_fault {i : Instr} {s t : State} (h : ExecShape i s t) :
    t.halt = s.halt ∧ t.fault = s.fault := by
  cases i with
  | ldVxK x => obtain ht | ⟨-, ht⟩ := h <;> rw [ht] <;> exact ⟨rfl, rfl⟩
  | _ =>
    have ht : t = _ := h
    rw [ht]; exact ⟨rfl, rfl⟩

/-- The one way into the key wait is an `FX0A` that sees no key (45_keypad_timers.md R152). -/
theorem ExecShape.no_key_of_wait {i : Instr} {s t : State} (h : ExecShape i s t)
    (hs : s.wait = false) (ht : t.wait = true) : s.k = 0 := by
  cases i with
  | ldVxK x =>
    obtain h | ⟨hk, -⟩ := h
    · rw [h] at ht; exact absurd ht (by simp [hs])
    · exact hk
  | _ =>
    have h : t = _ := h
    rw [h] at ht; exact absurd ht (by simp [hs])

/-- The instruction that enters the key wait writes neither DT nor ST. -/
theorem ExecShape.timers_of_wait {i : Instr} {s t : State} (h : ExecShape i s t)
    (hs : s.wait = false) (ht : t.wait = true) : t.dt = s.dt ∧ t.st = s.st := by
  cases i with
  | ldVxK x => obtain h | ⟨-, h⟩ := h <;> rw [h] <;> exact ⟨rfl, rfl⟩
  | ldDtVx x | ldStVx x =>
    have h : t = _ := h
    rw [h] at ht; exact absurd ht (by simp [hs])
  | _ =>
    have h : t = _ := h
    rw [h]; exact ⟨rfl, rfl⟩

/-- Settles O23: a fault writes none of these elements; without one, each instruction's shape names
the few it may write. -/
theorem elementsChangeOnlyByTheirInstructions : Obligations.ElementsChangeOnlyByTheirInstructions := by
  intro i s t h
  obtain ⟨f, rfl⟩ | hshape := exec_shape h
  · simp
  · cases i with
    | ldVxK x => obtain ht | ⟨-, ht⟩ := hshape <;> rw [ht] <;> simp
    | _ =>
      have ht : t = _ := hshape
      rw [ht]; simp

/-- Memory as data is kept by every instruction but the three that write it. -/
theorem exec_mem_eq {i : Instr} {s t : State} (h : exec i s = .next t)
    (hcall : ∀ nnn, i ≠ .call nnn) (hldB : ∀ x, i ≠ .ldB x) (hst : ∀ x, i ≠ .stRegs x) :
    t.mem = s.mem := by
  obtain ⟨f, rfl⟩ | hshape := exec_shape h
  · rfl
  · cases i with
    | call nnn => exact absurd rfl (hcall nnn)
    | ldB x => exact absurd rfl (hldB x)
    | stRegs x => exact absurd rfl (hst x)
    | ldVxK x => obtain ht | ⟨-, ht⟩ := hshape <;> rw [ht]
    | _ =>
      have ht : t = _ := hshape
      rw [ht]

theorem sameMemory_of_mem_eq {s t : State} (h : t.mem = s.mem) : SameMemory s t := fun a => by rw [h]

/-- Settles O22: memory is kept as data, so every byte of it reads the same. -/
theorem onlyCallAndStoresWriteMemory : Obligations.OnlyCallAndStoresWriteMemory :=
  fun _ _ _ h hcall hldB hst => sameMemory_of_mem_eq (exec_mem_eq h hcall hldB hst)

end Sys2Proof.Machine
end

section
/-! SUPPORT. Faults are precise (60_exceptions.md R160, R168): an instruction halts only by raising a
record in the state it began in, and which record depends on the instruction. -/

namespace Sys2Proof.Machine

theorem spLegal_iff {sp : Nat} : spLegal sp ↔ 0xEA0 ≤ sp ∧ sp ≤ 0xED0 ∧ sp % 4 = 0 := by
  have hbase : Config.stackBase = 0xEA0 := rfl
  constructor
  · rintro ⟨depth, hdepth, rfl⟩; omega
  · rintro ⟨hlo, hhi, hmod⟩; exact ⟨(sp - 0xEA0) / 4, by omega, by omega⟩

/-- The frame at a legal SP, and the one below it, lie in memory (10_state.md R15). -/
theorem spLegal.inMemory {sp : Nat} (h : spLegal sp) :
    inMemory sp 4 = true ∧ inMemory (sp - 4) 4 = true := by
  rw [spLegal_iff] at h
  simp only [inMemory_iff]; omega

@[simp] theorem State.awaitKey_halt (s : State) (x : Reg) : (s.awaitKey x).halt = s.halt := by
  unfold State.awaitKey; split <;> rfl

/-- Settles O21: the instructions that may fault, by what each can do; no other one halts. -/
theorem faultingInstructionWritesOnlyTheRecord : Obligations.FaultingInstructionWritesOnlyTheRecord := by
  intro i s t hsp hrun h hhalt
  have noFault (hshape : ExecShape i s t) : False := by
    rw [hshape.halt_fault.1, hrun] at hhalt; cases hhalt
  obtain ⟨hpush, hpop⟩ := hsp.inMemory
  cases i with
  | call nnn =>
    obtain ⟨-, he⟩ | ⟨-, he⟩ := exec_call_cases nnn s hpush <;> rw [he] at h <;> cases h
    · exact ⟨_, rfl, .inl ⟨rfl, nnn, rfl⟩⟩
    · exact (noFault rfl).elim
  | ret =>
    obtain ⟨-, he⟩ | ⟨-, -, he⟩ | ⟨-, -, he⟩ := exec_ret_cases s hpop <;> rw [he] at h <;> cases h
    · exact ⟨_, rfl, .inr (.inl ⟨rfl, rfl⟩)⟩
    · exact (noFault rfl).elim
    · exact ⟨_, rfl, .inr (.inr (.inl ⟨rfl, .inl rfl⟩))⟩
  | drw x y n =>
    obtain ⟨-, he⟩ | ⟨-, -, he⟩ := exec_drw_cases x y n s <;> rw [he] at h <;> cases h
    · exact (noFault (State.drawRows_eq _ _ _ _)).elim
    · exact ⟨_, rfl, .inr (.inr (.inl ⟨rfl, .inr (.inl ⟨x, y, n, rfl⟩)⟩))⟩
  | ldB x =>
    obtain ⟨-, he⟩ | ⟨-, he⟩ := exec_ldB_cases x s <;> rw [he] at h <;> cases h
    · exact (noFault rfl).elim
    · exact ⟨_, rfl, .inr (.inr (.inl ⟨rfl, .inr (.inr ⟨x, .inl rfl⟩)⟩))⟩
  | stRegs x =>
    obtain ⟨-, he⟩ | ⟨-, he⟩ := exec_stRegs_cases x s <;> rw [he] at h <;> cases h
    · exact (noFault rfl).elim
    · exact ⟨_, rfl, .inr (.inr (.inl ⟨rfl, .inr (.inr ⟨x, .inr (.inl rfl)⟩)⟩))⟩
  | ldRegs x =>
    obtain ⟨-, he⟩ | ⟨-, he⟩ := exec_ldRegs_cases x s <;> rw [he] at h <;> cases h
    · exact (noFault (State.setRegsFrom_eq _ _ _)).elim
    · exact ⟨_, rfl, .inr (.inr (.inl ⟨rfl, .inr (.inr ⟨x, .inr (.inr rfl)⟩)⟩))⟩
  | skp x =>
    obtain ⟨-, he⟩ | ⟨-, he⟩ := exec_skp_cases x s <;> rw [he] at h <;> cases h
    · rw [State.skipIf_halt, hrun] at hhalt; cases hhalt
    · exact ⟨_, rfl, .inr (.inr (.inr ⟨rfl, x, .inl rfl⟩))⟩
  | sknp x =>
    obtain ⟨-, he⟩ | ⟨-, he⟩ := exec_sknp_cases x s <;> rw [he] at h <;> cases h
    · rw [State.skipIf_halt, hrun] at hhalt; cases hhalt
    · exact ⟨_, rfl, .inr (.inr (.inr ⟨rfl, x, .inr rfl⟩))⟩
  | _ =>
    cases h
    exact absurd hhalt (by simp [hrun])

end Sys2Proof.Machine
end

section
/-! SUPPORT. The machine invariant (Safety.lean `State.Inv`): each part of a cycle keeps it, so every
step does. -/

namespace Sys2Proof.Machine

variable {s t : State}

/-! ### The parts of a cycle -/

/-- A fault in a machine that is not waiting keeps the invariant: record and HALT go together. -/
theorem State.Inv.raise (h : s.Inv) (hwait : s.wait = false) (f : FaultRecord) : (s.raise f).Inv :=
  { h with
    fault_iff_halt := rfl
    wait_not_halted := fun hw => absurd (hwait.symm.trans hw) nofun }

theorem State.Inv.jump (h : s.Inv) (target : Word) : (s.jump target).Inv := { h with }

/-- A sample taken outside the wait is free. -/
theorem State.Inv.refreshKeys (h : s.Inv) (hwait : s.wait = false) : s.refreshKeys.Inv :=
  { h with wait_no_key := fun hw => absurd (hwait.symm.trans hw) nofun }

theorem State.Inv.timerStep (h : s.Inv) : s.timerStep.Inv := by
  have hpacer := advance_le _ _ h.pacer_le
  have hdiv : s.div < 10 := h.div_lt
  obtain ⟨-, he⟩ | ⟨hne, he⟩ := s.timerStep_cases <;> rw [he]
  · exact { h with div_lt := (by decide : 0 < Config.timerDivider), pacer_le := hpacer }
  · exact { h with div_lt := (by omega : s.div + 1 < 10), pacer_le := hpacer }

theorem State.Inv.endCycle (h : s.Inv) : s.endCycle.Inv := by
  unfold State.endCycle
  split
  · exact h
  · exact h.timerStep

/-- Everything a poll can do (45_keypad_timers.md R152). -/
theorem State.pollKeys_cases (s : State) :
    (s.keySample = 0 ∧ s.pollKeys = s.refreshKeys) ∨
    (s.keySample ≠ 0 ∧ s.pollKeys =
      { s.refreshKeys.setReg s.wx (firstDown s.keySample) with wait := false }.timerStep) := by
  by_cases hk : s.keySample = 0
  · exact .inl ⟨hk, if_pos hk⟩
  · exact .inr ⟨hk, if_neg hk⟩

/-- A poll that ends the wait leaves a running machine, and one that does not has seen no key. -/
theorem State.Inv.pollKeys (h : s.Inv) : s.pollKeys.Inv := by
  obtain ⟨hk, he⟩ | ⟨-, he⟩ := s.pollKeys_cases <;> rw [he]
  · exact { h with wait_no_key := fun _ => hk }
  · exact State.Inv.timerStep { h with wait_not_halted := nofun, wait_no_key := nofun }

/-! ### The instructions -/

theorem exec_mem_wf {i : Instr} (hwf : Memory.wf s.mem = true) (hsp : spLegal s.sp)
    (h : exec i s = .next t) : Memory.wf t.mem = true := by
  cases i with
  | call nnn =>
    obtain ⟨-, he⟩ | ⟨-, he⟩ := exec_call_cases nnn s hsp.inMemory.1 <;> rw [he] at h <;> cases h
    · exact hwf
    · exact Memory.writeBlock_wf _ _ _ hwf (by simpa using hsp.inMemory.1)
  | ldB x =>
    obtain ⟨hin, he⟩ | ⟨-, he⟩ := exec_ldB_cases x s <;> rw [he] at h <;> cases h
    · exact Memory.writeBlock_wf _ _ _ hwf (by rw [inMemory_iff, decimalDigits_length]; omega)
    · exact hwf
  | stRegs x =>
    obtain ⟨hin, he⟩ | ⟨-, he⟩ := exec_stRegs_cases x s <;> rw [he] at h <;> cases h
    · exact Memory.writeBlock_wf _ _ _ hwf (by rw [inMemory_iff, State.regBlock_length]; omega)
    · exact hwf
  | _ => rw [exec_mem_eq h (fun _ => nofun) (fun _ => nofun) (fun _ => nofun)]; exact hwf

/-- SP moves by whole frames and stops at both ends of the stack (41_control_flow.md R98). -/
theorem exec_sp_legal {i : Instr} (hsp : spLegal s.sp) (h : exec i s = .next t) : spLegal t.sp := by
  have hlegal := spLegal_iff.mp hsp
  have htop : Config.stackTop = 0xED0 := rfl
  have hbase : Config.stackBase = 0xEA0 := rfl
  by_cases hchanged : t.sp = s.sp
  · rw [hchanged]; exact hsp
  · obtain rfl | ⟨nnn, rfl⟩ := (elementsChangeOnlyByTheirInstructions i s t h).1 hchanged
    · obtain ⟨-, he⟩ | ⟨hne, -, he⟩ | ⟨-, -, he⟩ := exec_ret_cases s hsp.inMemory.2 <;>
        rw [he] at h <;> cases h
      · exact hsp
      · exact spLegal_iff.mpr (by simp only; omega)
      · exact hsp
    · obtain ⟨-, he⟩ | ⟨hne, he⟩ := exec_call_cases nnn s hsp.inMemory.1 <;> rw [he] at h <;> cases h
      · exact hsp
      · exact spLegal_iff.mpr (by simp only; omega)

theorem exec_keeps_inv {i : Instr} (hs : s.Inv) (hrun : s.Running) (h : exec i s = .next t) : t.Inv := by
  obtain ⟨hhalted, hwait⟩ := hrun
  obtain ⟨f, rfl⟩ | hshape := exec_shape h
  · exact hs.raise hwait f
  · obtain ⟨-, -, -, -, -, -, -, hpacer, hdiv, hk, hparams, -, -⟩ :=
      elementsChangeOnlyByTheirInstructions i s t h
    obtain ⟨hhalt, hfault⟩ := hshape.halt_fault
    have noKey : t.wait = true → s.k = 0 := hshape.no_key_of_wait hwait
    exact
      { mem_wf := exec_mem_wf hs.mem_wf hs.sp_legal h
        sp_legal := exec_sp_legal hs.sp_legal h
        div_lt := hdiv ▸ hs.div_lt
        pacer_le := by rw [hpacer, hparams]; exact hs.pacer_le
        fault_iff_halt := by rw [hhalt, hfault]; exact hs.fault_iff_halt
        wait_not_halted := fun _ => hhalt.trans hhalted
        wait_no_key := fun hw => hk.trans (noKey hw) }

theorem execWord_keeps_inv {w : Word} (hs : s.Inv) (hrun : s.Running) (h : execWord w s = .next t) :
    t.Inv := by
  unfold execWord at h
  split at h
  · exact exec_keeps_inv hs hrun h
  · cases h; exact hs.raise hrun.2 _

/-- Settles O15: a request is nothing, a poll, a fetch fault, or fetch, refresh, the instruction and the
timer step, and each of these keeps the invariant. -/
theorem stepKeepsTheInvariant : Obligations.StepKeepsTheInvariant := by
  intro s t hs h
  obtain ⟨-, he⟩ | ⟨-, -, he⟩ | ⟨-, hwait, -, he⟩ | ⟨hhalt, hwait, -, u, hu, he⟩ := step_cases s <;>
    rw [he] at h <;> cases h
  · exact hs
  · exact hs.pollKeys
  · exact hs.raise hwait _
  · exact (execWord_keeps_inv ((hs.jump (s.ip + 2)).refreshKeys hwait) ⟨hhalt, hwait⟩ hu).endCycle

end Sys2Proof.Machine
end

section
/-! SUPPORT. The cycle (40_cycle.md R80 to R88): what a request does in each of the machine's modes, and
that every number of requests has a next state. -/

namespace Sys2Proof.Machine

/-! ### One request, mode by mode -/

theorem step_halted {s : State} (h : s.halt = true) : step s = .next s := if_pos h

theorem step_waiting {s : State} (hhalt : s.halt = false) (hwait : s.wait = true) :
    step s = .next s.pollKeys := by
  rw [step, cycleRequest, if_neg (by simp [hhalt]), if_pos hwait]

theorem step_fetchFault {s : State} (hhalt : s.halt = false) (hwait : s.wait = false)
    (hip : 4094 < s.ip.toNat) : step s = .next (s.raise (addressFault (lowestOutside s.ip.toNat))) := by
  obtain ⟨h, -⟩ | ⟨-, h, -⟩ | ⟨-, -, -, he⟩ | ⟨-, -, h, -⟩ := step_cases s
  · exact absurd h (by simp [hhalt])
  · exact absurd h (by simp [hwait])
  · exact he
  · omega

/-- The word a fetch from `a` reads. -/
def wordAt (m : Memory) (a : Nat) : Word := wordOfBytes (Memory.read m a) (Memory.read m (a + 1))

theorem step_running {s : State} (hhalt : s.halt = false) (hwait : s.wait = false)
    (hip : s.ip.toNat ≤ 4094) : ∃ u,
      execWord (wordAt s.mem s.ip.toNat) (s.jump (s.ip + 2)).refreshKeys = .next u ∧
      step s = .next u.endCycle := by
  obtain ⟨h, -⟩ | ⟨-, h, -⟩ | ⟨-, -, h, -⟩ | ⟨-, -, -, he⟩ := step_cases s
  · exact absurd h (by simp [hhalt])
  · exact absurd h (by simp [hwait])
  · omega
  · exact he

/-! ### The word decoded -/

theorem execWord_ok {w : Word} {i : Instr} (h : decodeWord w = .ok i) (s : State) :
    execWord w s = exec i s := by rw [execWord, h]

theorem execWord_reject {w : Word} {r : DecodeReject} (h : decodeWord w = .reject r) (s : State) :
    execWord w s = .next (s.raise (wordFault .unimplementedInstruction w)) := by rw [execWord, h]

theorem decodeWord_of_bytes_ok {b0 b1 : Byte} {i : Instr} (h : decodeBytes [b0, b1] = .ok (i, [])) :
    decodeWord (wordOfBytes b0 b1) = .ok i := by
  simp only [decodeBytes] at h
  split at h
  next hw => cases h; exact hw
  next => cases h

theorem decodeWord_of_bytes_reject {b0 b1 : Byte} {r : DecodeReject}
    (h : decodeBytes [b0, b1] = .reject r) : decodeWord (wordOfBytes b0 b1) = .reject r := by
  simp only [decodeBytes] at h
  split at h
  next => cases h
  next hw => cases h; exact hw

theorem State.endCycle_eq (s : State) :
    s.endCycle = if s.halt = true ∨ s.wait = true then s else s.timerStep := by
  simp [State.endCycle]

/-- Settles O7: fetch and refresh set the four elements named, and the two bytes decode to `i`. -/
theorem stepRunsTheDecodedInstruction : Obligations.StepRunsTheDecodedInstruction := by
  intro s i hhalt hwait hip hdecode
  obtain ⟨u, hu, hstep⟩ := step_running hhalt hwait hip
  rw [wordAt, execWord_ok (decodeWord_of_bytes_ok hdecode)] at hu
  exact ⟨u, hu, by rw [hstep, State.endCycle_eq]⟩

/-- Settles O8: inside memory the fetch is a jump to IP + 2, which does not wrap. -/
theorem fetchedWordIsBigEndian : Obligations.FetchedWordIsBigEndian := by
  intro s hip
  obtain ⟨-, he⟩ | ⟨hout, -⟩ := s.fetch_cases
  · refine ⟨_, _, he, wordOfBytes_toNat _ _, ?_, rfl⟩
    rw [State.jump_ip, BitVec.toNat_add_of_lt (by simp; omega)]
    rfl
  · omega

/-- Settles O9: the fetch fault is raised in the state the request found. -/
theorem fetchBeyondMemoryHalts : Obligations.FetchBeyondMemoryHalts :=
  fun _ hhalt hwait hip => step_fetchFault hhalt hwait hip

/-- Settles O10: the fault is raised after fetch and refresh, its word is the one fetched, and a halted
cycle has no timer step. -/
theorem illegalWordHaltsWithThatWord : Obligations.IllegalWordHaltsWithThatWord := by
  intro s r hhalt hwait hip hdecode
  obtain ⟨u, hu, hstep⟩ := step_running hhalt hwait hip
  have hreject := decodeWord_of_bytes_reject hdecode
  rw [wordAt, execWord_reject hreject] at hu
  cases hu
  have hword : (wordOfBytes (Memory.read s.mem s.ip.toNat) (Memory.read s.mem (s.ip.toNat + 1))).setWidth 32 =
      BitVec.ofNat 32 (256 * (Memory.read s.mem s.ip.toNat).toNat +
        (Memory.read s.mem (s.ip.toNat + 1)).toNat) := by
    rw [← wordOfBytes_toNat, BitVec.ofNat_toNat]
  rw [hstep, State.endCycle_stopped _ (.inl rfl), wordFault, hword]
  rfl

/-! ### Any number of requests -/

theorem step_next (s : State) : ∃ t, step s = .next t := by
  obtain ⟨-, he⟩ | ⟨-, -, he⟩ | ⟨-, -, -, he⟩ | ⟨-, -, -, _, -, he⟩ := step_cases s
  all_goals exact ⟨_, he⟩

theorem run_succ_of_step {s t : State} (h : step s = .next t) (n : Nat) :
    Host.Core.run Sys2Proof.core (n + 1) s = Host.Core.run Sys2Proof.core n t := by
  have hcore : Sys2Proof.core.step s = .next t := h
  simp only [Host.Core.run, hcore]

/-- Settles O11: each request of a halted machine answers the state it found. -/
theorem haltedMachineNeverChanges : Obligations.HaltedMachineNeverChanges := by
  intro n s h
  induction n with
  | zero => rfl
  | succ n ih => rw [run_succ_of_step (step_halted h), ih]

/-- Settles O12: by induction on the number of requests, each of which has a next state. -/
theorem everyRunHasANextState : Obligations.EveryRunHasANextState := by
  intro n
  induction n with
  | zero => exact fun s => ⟨s, rfl⟩
  | succ n ih =>
    intro s
    obtain ⟨t, ht⟩ := step_next s
    rw [run_succ_of_step ht]
    exact ih t

/-! ### The key wait -/

/-- Settles O13: the two outcomes of a poll; FirstDown is the lowest line of the sample. -/
theorem waitingMachinePollsTheKeypad : Obligations.WaitingMachinePollsTheKeypad := by
  intro s hhalt hwait
  have hstep := step_waiting hhalt hwait
  obtain ⟨hk, he⟩ | ⟨hk, he⟩ := s.pollKeys_cases
  · refine ⟨fun _ => ?_, fun hne => absurd hk hne⟩
    rw [hstep, he, State.refreshKeys, hk]
  · refine ⟨fun hz => absurd hz hk, fun _ => ?_⟩
    obtain ⟨j, hj, hdown, hlow⟩ := firstDown_spec s.keySample hk
    refine ⟨j, ⟨hdown, hlow⟩, ?_⟩
    rw [hstep, he, hj]
    rfl

end Sys2Proof.Machine
end

section
/-! SUPPORT. The timers over a request and over many timer steps (60_exceptions.md R174 to R177). -/

namespace Sys2Proof.Machine

/-! ### One request -/

theorem State.timerStep_halt (s : State) : s.timerStep.halt = s.halt := by rw [s.timerStep_eq]
theorem State.timerStep_wait (s : State) : s.timerStep.wait = s.wait := by rw [s.timerStep_eq]

theorem State.timerStep_div (s : State) (h : s.div < 10) : s.timerStep.div = (s.div + 1) % 10 := by
  obtain ⟨h9, he⟩ | ⟨hne, he⟩ := s.timerStep_cases <;> rw [he]
  · simp [h9]
  · exact (Nat.mod_eq_of_lt (by omega : s.div + 1 < 10)).symm

theorem State.timerStep_pacer (s : State) :
    s.timerStep.pacer = advance s.pacer s.params.pacerStart true := by
  obtain ⟨-, he⟩ | ⟨-, he⟩ := s.timerStep_cases <;> rw [he]

/-- DT and ST count down in the step that completes ten (60_exceptions.md R177). -/
theorem State.timerStep_dt_st (s : State) (h : s.div < 10) :
    s.timerStep.dt.toNat = s.dt.toNat - (s.div + 1) / 10 ∧
    s.timerStep.st.toNat = s.st.toNat - (s.div + 1) / 10 := by
  obtain ⟨h9, he⟩ | ⟨hne, he⟩ := s.timerStep_cases <;> rw [he]
  · rw [h9]; exact ⟨advanceByte_toNat s.dt, advanceByte_toNat s.st⟩
  · have : (s.div + 1) / 10 = 0 := by omega
    simp [this]

/-- The four timer elements are the same in both states. -/
def SameTimers (s t : State) : Prop :=
  t.pacer = s.pacer ∧ t.div = s.div ∧ t.dt = s.dt ∧ t.st = s.st

/-- An instruction that faults or enters the wait moves no timer. -/
theorem exec_sameTimers_of_stopped {i : Instr} {s t : State} (hrun : s.Running)
    (h : exec i s = .next t) (hstop : t.halt = true ∨ t.wait = true) : SameTimers s t := by
  obtain ⟨f, rfl⟩ | hshape := exec_shape h
  · exact ⟨rfl, rfl, rfl, rfl⟩
  · obtain ⟨-, -, -, -, -, -, -, hpacer, hdiv, -⟩ := elementsChangeOnlyByTheirInstructions i s t h
    have hwait : t.wait = true := hstop.resolve_left (by simp [hshape.halt_fault.1, hrun.1])
    exact ⟨hpacer, hdiv, hshape.timers_of_wait hrun.2 hwait⟩

theorem execWord_sameTimers_of_stopped {w : Word} {s t : State} (hrun : s.Running)
    (h : execWord w s = .next t) (hstop : t.halt = true ∨ t.wait = true) : SameTimers s t := by
  unfold execWord at h
  split at h
  · exact exec_sameTimers_of_stopped hrun h hstop
  · cases h; exact ⟨rfl, rfl, rfl, rfl⟩

theorem execWord_div {w : Word} {s t : State} (h : execWord w s = .next t) : t.div = s.div := by
  unfold execWord at h
  split at h
  next i _ =>
    obtain ⟨-, -, -, -, -, -, -, -, hdiv, -⟩ := elementsChangeOnlyByTheirInstructions i s t h
    exact hdiv
  next => cases h; rfl

/-- Settles O14: a request ends with the timer step exactly when it ends neither halted nor waiting. -/
theorem timersMoveOnlyInCompletedCycles : Obligations.TimersMoveOnlyInCompletedCycles := by
  intro s t hdiv h
  obtain ⟨hhalt, he⟩ | ⟨hhalt, hwait, he⟩ | ⟨-, -, -, he⟩ | ⟨hhalt, hwait, -, u, hu, he⟩ := step_cases s <;>
    rw [he] at h <;> cases h
  · exact ⟨fun _ => ⟨rfl, rfl, rfl, rfl⟩, fun hrun => absurd hhalt (by simp [hrun])⟩
  · obtain ⟨-, hp⟩ | ⟨-, hp⟩ := s.pollKeys_cases <;> rw [hp]
    · exact ⟨fun _ => ⟨rfl, rfl, rfl, rfl⟩, fun _ hrun => absurd hwait (by simpa using hrun)⟩
    · refine ⟨fun hstop => absurd hstop ?_, fun _ _ => State.timerStep_div _ hdiv⟩
      rw [State.timerStep_halt, State.timerStep_wait]
      simp [hhalt]
  · exact ⟨fun _ => ⟨rfl, rfl, rfl, rfl⟩, nofun⟩
  · rw [State.endCycle_eq]
    split
    next hstop =>
      have hsame := execWord_sameTimers_of_stopped (s := (s.jump (s.ip + 2)).refreshKeys)
        ⟨hhalt, hwait⟩ hu hstop
      exact ⟨fun _ => hsame, fun hh hw => absurd hstop (by simp [hh, hw])⟩
    next hrun =>
      have hudiv : u.div = s.div := execWord_div (s := (s.jump (s.ip + 2)).refreshKeys) hu
      refine ⟨fun hstop => absurd hstop ?_, fun _ _ => ?_⟩
      · rwa [State.timerStep_halt, State.timerStep_wait]
      · rw [State.timerStep_div u (by omega), hudiv]

/-! ### Any number of timer steps -/

/-- Settles O55: by induction on the number of steps, the last of which starts from the divider's phase
`(div + m) % 10`. -/
theorem timersCountTenthCycles : Obligations.TimersCountTenthCycles := by
  rintro m s t hdiv rfl
  induction m with
  | zero => exact ⟨by simp; omega, by simp; omega, by simp; omega, rfl, rfl⟩
  | succ m ih =>
    obtain ⟨hdt, hst, hd, hpacer, hframe⟩ := ih
    rw [Function.iterate_succ_apply', Function.iterate_succ_apply']
    generalize State.timerStep^[m] s = u at hdt hst hd hpacer hframe ⊢
    have hparams : u.params = s.params := by rw [hframe]
    have hphase : u.div < 10 := by omega
    obtain ⟨hdt', hst'⟩ := u.timerStep_dt_st hphase
    refine ⟨by omega, by omega, ?_, ?_, ?_⟩
    · rw [u.timerStep_div hphase]; omega
    · rw [u.timerStep_pacer, hpacer, hparams]
    · rw [u.timerStep_eq, hframe]

end Sys2Proof.Machine
end

section
/-! SUPPORT. Reset (70_reset_and_hazards.md R191 to R193): every element, MEM byte by byte, and the image
that does not fit. -/

namespace Sys2Proof.Machine

/-- Settles O17: MEM is laid canonical with and without the image, and the other elements are those of
reset but for HALT and the record, which an oversized image sets together. -/
theorem bootMeetsTheInvariant : Obligations.BootMeetsTheInvariant := by
  intro p font fill image
  have resetSp : spLegal Config.stackBase := ⟨0, Nat.zero_le _, rfl⟩
  have resetDiv : 0 < Config.timerDivider := by decide
  cases hfits : imageFits image
  · rw [boot_oversized p font fill hfits]
    exact ⟨resetMemory_wf font fill [] (Nat.zero_le _), resetSp, resetDiv, le_rfl, rfl, nofun, nofun⟩
  · rw [boot_fits p font fill hfits]
    exact ⟨resetMemory_wf font fill image (imageFits_iff.mp hfits), resetSp, resetDiv, le_rfl, rfl,
      nofun, nofun⟩

/-- Settles O16: reset is the boot with the defaults and no image. -/
theorem resetMeetsTheInvariant : Obligations.ResetMeetsTheInvariant := by
  unfold Obligations.ResetMeetsTheInvariant
  rw [← boot_default]
  exact bootMeetsTheInvariant defaultParams fontVector memFill []

/-- FONT's default is what MEM reads as below 80 (log 8). -/
theorem background_font {a : Nat} (h : a < 80) : Memory.background a = fontVector[a] := by
  have hb : Memory.background a = defaultFont.getD a memFill := if_pos h
  rw [hb]
  simp [List.getD_eq_getElem?_getD, fontVector, show a < defaultFont.length from h]

theorem background_above_font {a : Nat} (h : 80 ≤ a) : Memory.background a = 0 :=
  if_neg (Nat.not_lt.mpr h)

/-- Settles O18: registers and framebuffer are filled with 0, and MEM lists nothing, so it reads as the
background; the other elements are what `State.reset` writes. -/
theorem resetStateOfEveryElement : Obligations.ResetStateOfEveryElement := by
  refine ⟨rfl, rfl, fun r => ?regs, rfl, Framebuffer.cell_clear, rfl, rfl, rfl, rfl, rfl, rfl, rfl, rfl, rfl,
    fun a h => background_above_font h, fun a h => background_font h⟩
  case regs => simp [State.reg, State.reset]

/-! ### MEM after a valid reset -/

section
variable (font : Vector Byte 80) (fill : Byte) (image : List Byte)

/-- The part of memory below the image: the font, then the fill. -/
def resetLow : List Byte := font.toList ++ List.replicate 432 fill

@[simp] theorem resetLow_length : (resetLow font fill).length = 512 := by
  rw [resetLow, List.length_append, List.length_replicate, Vector.length_toList]

theorem resetBytes_eq : resetBytes font fill image =
    resetLow font fill ++ (image ++ List.replicate (3584 - image.length) fill) := by
  rw [resetLow, ← List.append_assoc]; rfl

theorem resetBytes_font {a : Nat} (h : a < 80) : (resetBytes font fill image).getD a 0 = font[a] := by
  rw [resetBytes_eq, List.getD_append _ _ _ _ (by simp; omega), resetLow,
    List.getD_append _ _ _ _ (by simpa using h), List.getD_eq_getElem _ _ (by simpa using h)]
  rfl

theorem resetBytes_image {k : Nat} (h : k < image.length) :
    (resetBytes font fill image).getD (0x200 + k) 0 = image[k] := by
  rw [resetBytes_eq, List.getD_append_right _ _ _ _ (by simp), resetLow_length, Nat.add_sub_cancel_left,
    List.getD_append _ _ _ _ h, List.getD_eq_getElem]

theorem resetBytes_fill {a : Nat} (hfont : 80 ≤ a) (htop : a < 0x1000)
    (himage : a < 0x200 ∨ 0x200 + image.length ≤ a) (hlen : image.length ≤ 3584) :
    (resetBytes font fill image).getD a 0 = fill := by
  rw [resetBytes_eq]
  by_cases hlow : a < 0x200
  · rw [List.getD_append _ _ _ _ (by simpa using hlow), resetLow,
      List.getD_append_right _ _ _ _ (by simpa using hfont), List.getD_replicate]
    simp; omega
  · rw [List.getD_append_right _ _ _ _ (by simp; omega), resetLow_length,
      List.getD_append_right _ _ _ _ (by omega), List.getD_replicate]
    omega

/-- MEM after a valid reset is the list of bytes laid from address 0. -/
theorem read_boot (p : Params) (hlen : image.length ≤ 3584) {a : Nat} (ha : a < 0x1000) :
    Memory.read (boot p font fill image).mem a = (resetBytes font fill image).getD a 0 := by
  have hbytes := resetBytes_length font fill image hlen
  rw [boot_fits p font fill (imageFits_iff.mpr hlen), Memory.read_ofBytes _ _ _ (by rw [hbytes]; decide),
    if_pos ⟨Nat.zero_le a, by omega⟩, Nat.sub_zero]

end

/-- Settles O19: a byte of MEM is a byte of the list laid, whose font, image and fill stand apart. -/
theorem bootLoadsFontFillAndImage : Obligations.BootLoadsFontFillAndImage := by
  intro p font fill image hlen
  refine ⟨fun a ha => ?font, fun k hk => ?image, fun a hfont htop himage => ?fill, ?others⟩
  case font => rw [read_boot font fill image p hlen (by omega), resetBytes_font font fill image ha]
  case image => rw [read_boot font fill image p hlen (by omega), resetBytes_image font fill image hk]
  case fill =>
    rw [read_boot font fill image p hlen htop, resetBytes_fill font fill image hfont htop himage hlen]
  case others => rw [boot_fits p font fill (imageFits_iff.mpr hlen)]

/-- Settles O20: the oversized boot is halted over the memory of no image, so no request changes it. -/
theorem oversizedImageIsRejected : Obligations.OversizedImageIsRejected := by
  intro p font fill image hlen
  have hhalt : (boot p font fill image).halt = true := by
    rw [boot_oversized p font fill (not_imageFits_iff.mpr hlen)]
  refine ⟨hhalt, ?record, ?memory, fun n => haltedMachineNeverChanges n _ hhalt⟩
  case record => rw [boot_oversized p font fill (not_imageFits_iff.mpr hlen), loadLength]
  case memory => rw [boot_oversized p font fill (not_imageFits_iff.mpr hlen), boot_fits p font fill rfl]

end Sys2Proof.Machine
end

section
/-! SUPPORT. Jumps, register skips, the address register (41_control_flow.md R90, R93, R96, R97;
43_index_memory.md R130 to R132) and the frame of the instructions that write one element. -/

namespace Sys2Proof.Machine

theorem exec_jp (nnn : Addr12) (s : State) : exec (.jp nnn) s = .next (s.jump (zextAddr nnn)) := rfl

theorem exec_jpV0 (nnn : Addr12) (s : State) :
    exec (.jpV0 nnn) s = .next (s.jump (s.regZext 0 + zextAddr nnn)) := rfl

theorem exec_seReg (x y : Reg) (s : State) :
    exec (.seReg x y) s = .next (s.skipIf (s.reg x == s.reg y)) := rfl

theorem exec_sneReg (x y : Reg) (s : State) :
    exec (.sneReg x y) s = .next (s.skipIf (s.reg x != s.reg y)) := rfl

theorem exec_ldI (nnn : Addr12) (s : State) : exec (.ldI nnn) s = .next (s.setI (zextAddr nnn)) := rfl

theorem exec_addI (x : Reg) (s : State) : exec (.addI x) s = .next (s.setI (s.i + s.regZext x)) := rfl

theorem exec_ldF (x : Reg) (s : State) : exec (.ldF x) s = .next (s.setI (glyphAddr (s.reg x))) := rfl

@[simp] theorem zextAddr_toNat (nnn : Addr12) : (zextAddr nnn).toNat = nnn.toNat :=
  BitVec.toNat_setWidth_of_le (by decide)

@[simp] theorem State.regZext_toNat (s : State) (x : Reg) : (s.regZext x).toNat = (s.reg x).toNat :=
  BitVec.toNat_setWidth_of_le (by decide)

/-- The whole byte is used and 5 × 255 needs no reduction (43_index_memory.md R132). -/
theorem glyphAddr_toNat (d : Byte) : (glyphAddr d).toNat = 5 * d.toNat := by
  have := d.isLt
  rw [glyphAddr, BitVec.toNat_ofNat, Nat.mod_eq_of_lt (by omega)]

/-- Settles O24: the target is NNN zero-extended. -/
theorem jumpGoesToItsTarget : Obligations.JumpGoesToItsTarget := fun nnn s =>
  ⟨_, exec_jp nnn s, zextAddr_toNat nnn, rfl, rfl⟩

/-- Settles O25: a byte plus twelve bits stays below 65536, so IP holds the sum itself. -/
theorem offsetJumpAddsRegisterZero : Obligations.OffsetJumpAddsRegisterZero := by
  intro nnn s
  refine ⟨_, exec_jpV0 nnn s, ?_, rfl, rfl⟩
  have := nnn.isLt; have := (s.reg 0).isLt
  rw [State.jump_ip, BitVec.toNat_add, State.regZext_toNat, zextAddr_toNat, Nat.mod_eq_of_lt (by omega)]

/-- Settles O27: each is a `skipIf` on the comparison of the registers, which for X = Y is decided. -/
theorem registerSkips : Obligations.RegisterSkips := by
  intro x y s
  refine ⟨?_, ?_, ?_, ?_⟩
  · simp [exec_seReg, State.skipIf_eq, BitVec.toNat_inj]
  · simp [exec_sneReg, State.skipIf_eq, BitVec.toNat_inj]
  · simp [exec_seReg, State.skipIf_eq]
  · simp [exec_sneReg, State.skipIf_eq]

/-- Settles O38: each is one `setI`, which keeps memory, registers and HALT. -/
theorem indexRegisterResults : Obligations.IndexRegisterResults := by
  intro nnn x s
  refine ⟨⟨_, exec_ldI nnn s, zextAddr_toNat nnn, fun _ => rfl, rfl, rfl⟩,
    ⟨_, exec_addI x s, ?sum, fun _ => rfl, rfl, rfl⟩,
    ⟨_, exec_ldF x s, glyphAddr_toNat _, fun _ => rfl, rfl, rfl⟩⟩
  case sum => rw [State.setI_i, BitVec.toNat_add, State.regZext_toNat]

/-- Settles O53: none of these instructions writes memory or takes a fault, and its shape names the one
element it writes. -/
theorem frameOfSingleElementWrites : Obligations.FrameOfSingleElementWrites := by
  intro nnn x nn i s t h
  refine ⟨fun hi => ?ip, fun hi => ?index, ?dt, ?st, ?fb⟩
  case ip =>
    simp only [List.mem_cons, List.not_mem_nil, or_false] at hi
    obtain rfl | rfl | rfl | rfl := hi
    · cases h; exact ⟨fun _ => rfl, rfl⟩
    · cases h; exact ⟨fun _ => rfl, rfl⟩
    · rw [exec_seImm] at h; cases h; rw [State.skipIf_eq]; exact ⟨fun _ => rfl, rfl⟩
    · rw [exec_sneImm] at h; cases h; rw [State.skipIf_eq]; exact ⟨fun _ => rfl, rfl⟩
  case index =>
    simp only [List.mem_cons, List.not_mem_nil, or_false] at hi
    obtain rfl | rfl | rfl := hi <;> cases h <;> exact ⟨fun _ => rfl, rfl⟩
  case dt => rintro rfl; cases h; exact ⟨fun _ => rfl, rfl⟩
  case st => rintro rfl; cases h; exact ⟨fun _ => rfl, rfl⟩
  case fb => rintro rfl; cases h; exact ⟨fun _ => rfl, rfl⟩

end Sys2Proof.Machine
end

section
/-! SUPPORT. The 8-bit ALU (42_alu.md R112 to R123): an instruction without a flag is one `setReg`, one
with a flag is one `setFlagged`, so the rules of these two say what it does and what it keeps. -/

namespace Sys2Proof.Machine

/-! ### Assign and logic -/

theorem exec_ldReg (x y : Reg) (s : State) : exec (.ldReg x y) s = .next (s.setReg x (s.reg y)) := rfl

theorem exec_orReg (x y : Reg) (s : State) :
    exec (.orReg x y) s = .next (s.setReg x (s.reg x ||| s.reg y)) := rfl

theorem exec_andReg (x y : Reg) (s : State) :
    exec (.andReg x y) s = .next (s.setReg x (s.reg x &&& s.reg y)) := rfl

theorem exec_xorReg (x y : Reg) (s : State) :
    exec (.xorReg x y) s = .next (s.setReg x (s.reg x ^^^ s.reg y)) := rfl

/-- Settles O33: the byte written is V[Y], or the bitwise operation on V[X] and V[Y]. -/
theorem assignAndLogic : Obligations.AssignAndLogic := by
  intro x y s
  refine ⟨⟨_, exec_ldReg x y s, s.reg_setReg_self x _, s.setReg_reg_vf _, rfl⟩,
    ⟨_, exec_orReg x y s, fun b => ?_, s.setReg_reg_vf _, rfl⟩,
    ⟨_, exec_andReg x y s, fun b => ?_, s.setReg_reg_vf _, rfl⟩,
    ⟨_, exec_xorReg x y s, fun b => ?_, s.setReg_reg_vf _, rfl⟩⟩
  · rw [State.reg_setReg_self, BitVec.getLsbD_or]
  · rw [State.reg_setReg_self, BitVec.getLsbD_and]
  · rw [State.reg_setReg_self, BitVec.getLsbD_xor]

/-- Settles O34: each of the seven is one `setReg` of V[X]. -/
theorem frameOfPlainRegisterWrites : Obligations.FrameOfPlainRegisterWrites := by
  intro i x y nn s t hi h
  have oneWrite : ∃ b, t = s.setReg x b := by
    simp only [List.mem_cons, List.not_mem_nil, or_false] at hi
    obtain rfl | rfl | rfl | rfl | rfl | rfl | rfl := hi <;> cases h <;> exact ⟨_, rfl⟩
  obtain ⟨b, rfl⟩ := oneWrite
  exact ⟨fun r hr => s.reg_setReg_ne b hr, fun _ => rfl, rfl⟩

/-- Settles O37: the byte is the port's next, the draw moves the port on by one, and V[X] gets the
masked byte. -/
theorem randomByteIsMasked : Obligations.RandomByteIsMasked := by
  intro x nn s
  have masked : (s.dropRandom.setReg x (s.randomByte &&& nn)).reg x = s.randomByte &&& nn :=
    s.dropRandom.reg_setReg_self x _
  refine ⟨_, s.randomByte, rfl, fun b rest hq => ?port, masked, ?mask, rfl, fun r hr => ?frame,
    fun _ => rfl, rfl⟩
  case port =>
    exact ⟨by rw [State.randomByte, hq], by rw [State.setReg_rndQueue, State.dropRandom_rndQueue, hq]; rfl⟩
  case mask => rw [masked, BitVec.and_assoc, BitVec.and_not_self]; exact BitVec.and_zero
  case frame => exact s.dropRandom.reg_setReg_ne _ hr

/-! ### Result and flag -/

theorem flagByte_toNat (c : Bool) : (flagByte c).toNat = if c = true then 1 else 0 := by cases c <;> rfl

/-- What a flag-setting instruction does to the whole state: the result to V[X] unless that is VF, the
flag to VF, nothing else (42_alu.md R122). -/
theorem setFlagged_spec (s : State) (x : Reg) {rf : Byte × Byte} {result flag : Nat}
    (hr : rf.1.toNat = result) (hf : rf.2.toNat = flag) :
    (x ≠ vf → ((s.setFlagged x rf).reg x).toNat = result) ∧ ((s.setFlagged x rf).reg vf).toNat = flag ∧
    (∀ r, r ≠ x → r ≠ vf → (s.setFlagged x rf).reg r = s.reg r) ∧ SameMemory s (s.setFlagged x rf) ∧
    s.setFlagged x rf = { s with v := (s.setFlagged x rf).v } := by
  refine ⟨fun hx => ?_, ?_, fun r hrx hrf => ?_, fun _ => rfl, rfl⟩
  · rw [State.reg_setFlagged, if_neg hx, if_pos rfl, hr]
  · rw [State.reg_setFlagged, if_pos rfl, hf]
  · rw [State.reg_setFlagged, if_neg hrf, if_neg hrx]

theorem addWithCarry_result (a b : Byte) : (addWithCarry a b).1.toNat = (a.toNat + b.toNat) % 256 :=
  BitVec.toNat_add a b

theorem addWithCarry_flag (a b : Byte) :
    (addWithCarry a b).2.toNat = if a.toNat + b.toNat > 255 then 1 else 0 := by
  simp [addWithCarry, flagByte_toNat]

theorem subNotBorrow_result (a b : Byte) :
    (subNotBorrow a b).1.toNat = (a.toNat + 256 - b.toNat) % 256 := by
  have := b.isLt
  rw [subNotBorrow, BitVec.toNat_sub]
  congr 1; omega

theorem subNotBorrow_flag (a b : Byte) :
    (subNotBorrow a b).2.toNat = if a.toNat ≥ b.toNat then 1 else 0 := by
  simp [subNotBorrow, flagByte_toNat]

theorem shiftRight_result (b : Byte) : (shiftRight b).1.toNat = b.toNat / 2 := by
  rw [shiftRight, BitVec.toNat_ushiftRight]; rfl

theorem shiftRight_flag (b : Byte) : (shiftRight b).2.toNat = b.toNat % 2 := by
  rw [shiftRight, flagByte_toNat, BitVec.getLsbD, Nat.testBit_eq_decide_div_mod_eq]
  simp only [decide_eq_true_eq]
  split <;> omega

theorem shiftLeft_result (b : Byte) : (shiftLeft b).1.toNat = 2 * b.toNat % 256 := by
  rw [shiftLeft, BitVec.toNat_shiftLeft, Nat.shiftLeft_eq, Nat.mul_comm]

theorem shiftLeft_flag (b : Byte) : (shiftLeft b).2.toNat = b.toNat / 128 := by
  have := b.isLt
  rw [shiftLeft, flagByte_toNat, BitVec.getLsbD, Nat.testBit_eq_decide_div_mod_eq]
  simp only [decide_eq_true_eq]
  split <;> omega

/-- Settles O35: each is a `setFlagged` of the sum, or of a difference, with its flag. -/
theorem addAndSubtractSetTheFlag : Obligations.AddAndSubtractSetTheFlag := fun x _ s =>
  ⟨⟨_, rfl, setFlagged_spec s x (addWithCarry_result _ _) (addWithCarry_flag _ _)⟩,
   ⟨_, rfl, setFlagged_spec s x (subNotBorrow_result _ _) (subNotBorrow_flag _ _)⟩,
   ⟨_, rfl, setFlagged_spec s x (subNotBorrow_result _ _) (subNotBorrow_flag _ _)⟩⟩

/-- Settles O36: each is a `setFlagged` of the shifted source with the bit shifted out. -/
theorem shiftsMoveOneBitIntoTheFlag : Obligations.ShiftsMoveOneBitIntoTheFlag := by
  intro x y s b hx hy
  have source : s.shiftOperand x y = b := by
    unfold State.shiftOperand
    split
    next h => exact (hx h).symm
    next h => exact (hy h).symm
  subst source
  exact ⟨⟨_, rfl, setFlagged_spec s x (shiftRight_result _) (shiftRight_flag _)⟩,
    ⟨_, rfl, setFlagged_spec s x (shiftLeft_result _) (shiftLeft_flag _)⟩⟩

end Sys2Proof.Machine
end

section
/-! SUPPORT. The call stack (41_control_flow.md R91, R92, R98): the frame a call stores, the value a
return reads, and the two limits. -/

namespace Sys2Proof.Machine

/-- Settles O29: at the limits the fault is raised before the stack is touched, with the word of the
instruction (log 34). -/
theorem stackLimitsFault : Obligations.StackLimitsFault := by
  intro nnn s
  refine ⟨fun htop => ?overflow, fun hbase => ?underflow⟩
  case overflow =>
    obtain ⟨-, he⟩ | ⟨hne, -⟩ := exec_call_cases nnn s (by rw [htop]; decide)
    · have hword : (encode (.call nnn)).setWidth 32 = BitVec.ofNat 32 (0x2000 + nnn.toNat) := by
        have := nnn.isLt
        apply BitVec.eq_of_toNat_eq
        simp [encode, encodeA]; omega
      rw [he, wordFault, hword]; rfl
    · exact absurd htop hne
  case underflow =>
    obtain ⟨-, he⟩ | ⟨hne, -⟩ | ⟨hne, -⟩ := exec_ret_cases s (by rw [hbase]; decide)
    · exact he
    · exact absurd hbase hne
    · exact absurd hbase hne

/-! ### The call -/

theorem exec_call_pushes (nnn : Addr12) {s : State} (hsp : spLegal s.sp) (hne : s.sp ≠ 0x0ED0) :
    exec (.call nnn) s = .next { s with
      mem := Memory.writeBlock s.mem s.sp (frameOf s.params.frameOrder s.ip)
      sp := s.sp + 4
      ip := zextAddr nnn } := by
  obtain ⟨htop, -⟩ | ⟨-, he⟩ := exec_call_cases nnn s hsp.inMemory.1
  · exact absurd htop hne
  · exact he

/-- The bytes of the frame at the old SP, and nothing else in memory, change. -/
theorem read_pushed {s : State} (hwf : Memory.wf s.mem = true) (hsp : spLegal s.sp) (c : Nat) :
    Memory.read (Memory.writeBlock s.mem s.sp (frameOf s.params.frameOrder s.ip)) c =
      if s.sp ≤ c ∧ c < s.sp + 4 then (frameOf s.params.frameOrder s.ip).getD (c - s.sp) 0
      else Memory.read s.mem c := by
  have h := Memory.read_writeBlock (frameOf s.params.frameOrder s.ip) s.mem s.sp c hwf
    (by simpa using hsp.inMemory.1)
  rwa [frameOf_length] at h

theorem read_pushed_frame {s : State} (hwf : Memory.wf s.mem = true) (hsp : spLegal s.sp) {k : Nat}
    (hk : k < 4) :
    Memory.read (Memory.writeBlock s.mem s.sp (frameOf s.params.frameOrder s.ip)) (s.sp + k) =
      (frameOf s.params.frameOrder s.ip).getD k 0 := by
  rw [read_pushed hwf hsp, if_pos (by omega), Nat.add_sub_cancel_left]

/-- The two bytes of a 16-bit value are its quotient and remainder by 256. -/
theorem word_bytes_toNat (w : Word) : (BitVec.ofNat 8 (w.toNat / 256)).toNat = w.toNat / 256 ∧
    (BitVec.ofNat 8 (w.toNat % 256)).toNat = w.toNat % 256 := by
  have := w.isLt
  simp only [BitVec.toNat_ofNat]; omega

/-- Settles O28: the frame is written at SP in the order of the parameters, then SP moves up. -/
theorem callPushesTheReturnAddress : Obligations.CallPushesTheReturnAddress := by
  intro nnn s hwf hsp hne
  refine ⟨_, exec_call_pushes nnn hsp hne, zextAddr_toNat nnn, rfl, fun horder => ?big, fun horder => ?little,
    fun a ha => ?outside, rfl⟩
  case outside => exact (read_pushed hwf hsp a).trans (if_neg (by omega))
  all_goals
    have h0 := read_pushed_frame hwf hsp (show 0 < 4 by decide)
    have h1 := read_pushed_frame hwf hsp (show 1 < 4 by decide)
    have h2 := read_pushed_frame hwf hsp (show 2 < 4 by decide)
    have h3 := read_pushed_frame hwf hsp (show 3 < 4 by decide)
    obtain ⟨hhi, hlo⟩ := word_bytes_toNat s.ip
    simp only [horder] at h0 h1 h2 h3 ⊢
  case big => exact ⟨h0, h1, h2 ▸ hhi, h3 ▸ hlo⟩
  case little => exact ⟨h0 ▸ hlo, h1 ▸ hhi, h2, h3⟩

/-! ### The return -/

/-- The value of the frame at `a`, byte by byte, in each order (10_state.md R18). -/
theorem frameValue_readBlock (order : FrameOrder) (m : Memory) (a : Nat) :
    frameValue order (Memory.readBlock m a 4) = match order with
      | .big => 0x1000000 * (Memory.read m a).toNat + 0x10000 * (Memory.read m (a + 1)).toNat +
          0x100 * (Memory.read m (a + 2)).toNat + (Memory.read m (a + 3)).toNat
      | .little => 0x1000000 * (Memory.read m (a + 3)).toNat + 0x10000 * (Memory.read m (a + 2)).toNat +
          0x100 * (Memory.read m (a + 1)).toNat + (Memory.read m a).toNat := by
  cases order <;> simp [frameValue, bigEndianValue, Memory.readBlock, Nat.add_assoc] <;> omega

/-- Everything a return can do with a call pending, by the value of the frame. -/
theorem exec_ret_pops {s : State} {v32 : Nat} (hsp : spLegal s.sp) (hne : s.sp ≠ 0x0EA0)
    (hv : frameValue s.params.frameOrder (Memory.readBlock s.mem (s.sp - 4) 4) = v32) :
    (v32 < 0x10000 ∧ exec .ret s = .next { s with sp := s.sp - 4, ip := BitVec.ofNat 16 v32 }) ∨
    (0x10000 ≤ v32 ∧ exec .ret s = .next (s.raise (addressFault v32))) := by
  obtain ⟨hbase, -⟩ | ⟨-, hlt, he⟩ | ⟨-, hge, he⟩ := exec_ret_cases s hsp.inMemory.2
  · exact absurd hbase hne
  · rw [hv] at hlt he; exact .inl ⟨hlt, he⟩
  · rw [hv] at hge he; exact .inr ⟨Nat.le_of_not_lt hge, he⟩

/-- Settles O30: the value read below SP in the frame order is `v32`, and decides the outcome. -/
theorem returnPopsTheFrame : Obligations.ReturnPopsTheFrame := by
  intro s v32 hsp hne hbig hlittle
  have hlegal := spLegal_iff.mp hsp
  have hv : frameValue s.params.frameOrder (Memory.readBlock s.mem (s.sp - 4) 4) = v32 := by
    have a1 : s.sp - 4 + 1 = s.sp - 3 := by omega
    have a2 : s.sp - 4 + 2 = s.sp - 2 := by omega
    have a3 : s.sp - 4 + 3 = s.sp - 1 := by omega
    rw [frameValue_readBlock, a1, a2, a3]
    cases horder : s.params.frameOrder
    · exact (hbig horder).symm
    · exact (hlittle horder).symm
  obtain ⟨hlt, he⟩ | ⟨hge, he⟩ := exec_ret_pops hsp hne hv
  · refine ⟨fun _ => ⟨_, he, ?_, rfl, fun _ => rfl, rfl⟩, fun hge => absurd hlt (Nat.not_lt.mpr hge)⟩
    exact Nat.mod_eq_of_lt hlt
  · exact ⟨fun hlt => absurd hlt (Nat.not_lt.mpr hge), fun _ => he⟩

/-- Settles O31: the return reads the frame the call stored, whose value is the IP pushed. -/
theorem callThenReturnComesBack : Obligations.CallThenReturnComesBack := by
  intro nnn s hwf hsp hne
  refine ⟨_, exec_call_pushes nnn hsp hne, fun t' hsp' hparams hframe => ?_⟩
  simp only at hsp' hparams hframe
  have hlegal := spLegal_iff.mp hsp
  have below : t'.sp - 4 = s.sp := by omega
  have hblock : Memory.readBlock t'.mem s.sp 4 = frameOf s.params.frameOrder s.ip := by
    rw [Memory.readBlock_congr 4 _ _ s.sp hframe]
    simpa using Memory.readBlock_writeBlock (frameOf s.params.frameOrder s.ip) s.mem s.sp hwf
      (by simpa using hsp.inMemory.1)
  have hv : frameValue t'.params.frameOrder (Memory.readBlock t'.mem (t'.sp - 4) 4) = s.ip.toNat := by
    rw [below, hblock, hparams, frameValue_frameOf]
  obtain ⟨-, he⟩ | ⟨hge, -⟩ :=
    exec_ret_pops (spLegal_iff.mpr (by omega)) (by omega) hv
  · exact ⟨_, he, BitVec.ofNat_toNat .., below⟩
  · exact absurd s.ip.isLt (Nat.not_lt.mpr hge)

end Sys2Proof.Machine
end

section
/-! SUPPORT. Memory accesses (20_memory.md R41, R54; 43_index_memory.md R133 to R136): each instruction's
outcome inside memory, outside it, and what a later load or fetch reads. -/

namespace Sys2Proof.Machine

/-- Settles O45: both primitives check the whole access first; inside memory a block is read back where
it was written. -/
theorem memoryPrimitivesObeyTheirLaw : Obligations.MemoryPrimitivesObeyTheirLaw := by
  intro s addr bytes hwf
  refine ⟨fun h => ?inside, fun hne hout => ?outside⟩
  case inside =>
    have hin : inMemory addr bytes.length = true := by
      rwa [inMemory_iff, List.length_eq_zero_iff]
    refine ⟨_, s.memWrite_inside hin, ?_, fun a ha => ?_, Memory.writeBlock_wf bytes s.mem addr hwf hin, rfl⟩
    · rw [State.memRead_inside _ hin, Memory.readBlock_writeBlock bytes s.mem addr hwf hin]
    · exact (Memory.read_writeBlock bytes s.mem addr a hwf hin).trans (if_neg (by omega))
  case outside =>
    have hout : inMemory addr bytes.length = false :=
      not_inMemory_iff.mpr ⟨by rwa [Ne, List.length_eq_zero_iff], hout⟩
    exact ⟨s.memWrite_outside hout, s.memRead_outside hout⟩

/-- Settles O42: each access is checked before the instruction writes anything. -/
theorem dataAccessOutsideMemoryHalts : Obligations.DataAccessOutsideMemoryHalts := by
  intro x y n s
  refine ⟨fun h => ?digits, fun h => ⟨?store, ?load⟩, fun hn h => ?draw⟩
  case digits =>
    obtain ⟨hin, -⟩ | ⟨-, he⟩ := exec_ldB_cases x s
    · omega
    · exact he
  case store =>
    obtain ⟨hin, -⟩ | ⟨-, he⟩ := exec_stRegs_cases x s
    · omega
    · exact he
  case load =>
    obtain ⟨hin, -⟩ | ⟨-, he⟩ := exec_ldRegs_cases x s
    · omega
    · exact he
  case draw =>
    obtain ⟨hin, -⟩ | ⟨-, -, he⟩ := exec_drw_cases x y n s
    · omega
    · exact he

/-! ### The decimal digits -/

theorem exec_ldB_inside {x : Reg} {s : State} (h : s.i.toNat + 2 ≤ 0xFFF) : exec (.ldB x) s =
    .next { s with mem := Memory.writeBlock s.mem s.i.toNat (decimalDigits (s.reg x)) } := by
  obtain ⟨-, he⟩ | ⟨hout, -⟩ := exec_ldB_cases x s
  · exact he
  · omega

/-- The three bytes are digits, and together they are the byte in decimal (43_index_memory.md R133). -/
theorem decimalDigits_spec (b : Byte) : ∃ d2 d1 d0 : Byte, decimalDigits b = [d2, d1, d0] ∧
    d2.toNat ≤ 2 ∧ d1.toNat ≤ 9 ∧ d0.toNat ≤ 9 ∧ 100 * d2.toNat + 10 * d1.toNat + d0.toNat = b.toNat := by
  have := b.isLt
  refine ⟨_, _, _, rfl, ?_⟩
  simp only [BitVec.toNat_ofNat]
  omega

/-- Settles O39: the three bytes written at I are the digits of VX. -/
theorem decimalDigitsAreStored : Obligations.DecimalDigitsAreStored := by
  intro x s hwf hi
  obtain ⟨d2, d1, d0, hdigits, h2, h1, h0, hsum⟩ := decimalDigits_spec (s.reg x)
  have hread (c : Nat) : Memory.read (Memory.writeBlock s.mem s.i.toNat (decimalDigits (s.reg x))) c =
      if s.i.toNat ≤ c ∧ c < s.i.toNat + 3 then (decimalDigits (s.reg x)).getD (c - s.i.toNat) 0
      else Memory.read s.mem c :=
    Memory.read_writeBlock (decimalDigits (s.reg x)) s.mem s.i.toNat c hwf
      (by rw [inMemory_iff, decimalDigits_length]; omega)
  have hdigit {k : Nat} (hk : k < 3) :
      Memory.read (Memory.writeBlock s.mem s.i.toNat (decimalDigits (s.reg x))) (s.i.toNat + k) =
        [d2, d1, d0].getD k 0 := by
    rw [hread, if_pos (by omega), Nat.add_sub_cancel_left, hdigits]
  have r2 := hdigit (show 0 < 3 by decide)
  have r1 := hdigit (show 1 < 3 by decide)
  have r0 := hdigit (show 2 < 3 by decide)
  simp only [Nat.add_zero, List.getD_cons_zero, List.getD_cons_succ] at r2 r1 r0
  refine ⟨_, exec_ldB_inside hi, ?_⟩
  simp only [r2, r1, r0]
  exact ⟨h2, h1, h0, hsum, fun a ha => (hread a).trans (if_neg (by omega)), trivial⟩

/-! ### Register blocks -/

theorem exec_stRegs_inside {x : Reg} {s : State} (h : s.i.toNat + x.val ≤ 0xFFF) : exec (.stRegs x) s =
    .next { s with mem := Memory.writeBlock s.mem s.i.toNat (s.regBlock x) } := by
  obtain ⟨-, he⟩ | ⟨hout, -⟩ := exec_stRegs_cases x s
  · exact he
  · omega

theorem exec_ldRegs_inside {x : Reg} {s : State} (h : s.i.toNat + x.val ≤ 0xFFF) : exec (.ldRegs x) s =
    .next (s.setRegsFrom 0 (Memory.readBlock s.mem s.i.toNat (x.val + 1))) := by
  obtain ⟨-, he⟩ | ⟨hout, -⟩ := exec_ldRegs_cases x s
  · exact he
  · omega

/-- After `FX55` the bytes at I are V[0] to V[X], and every other byte is as before. -/
theorem read_storedBlock {x : Reg} {s : State} (hwf : Memory.wf s.mem = true)
    (hi : s.i.toNat + x.val ≤ 0xFFF) :
    (∀ k : Reg, k ≤ x →
      Memory.read (Memory.writeBlock s.mem s.i.toNat (s.regBlock x)) (s.i.toNat + k.val) = s.reg k) ∧
    ∀ a, (a < s.i.toNat ∨ s.i.toNat + (x.val + 1) ≤ a) →
      Memory.read (Memory.writeBlock s.mem s.i.toNat (s.regBlock x)) a = Memory.read s.mem a := by
  have hin : inMemory s.i.toNat (s.regBlock x).length = true := by
    rw [inMemory_iff, State.regBlock_length]; omega
  constructor
  · intro k hk
    have hlen : k.val < (s.regBlock x).length := by
      rw [State.regBlock_length]; exact Nat.lt_succ_of_le hk
    rw [Memory.read_writeBlock _ _ _ _ hwf hin, if_pos (by omega), Nat.add_sub_cancel_left,
      List.getD_eq_getElem _ _ hlen, s.regBlock_getElem x k.val hlen k.isLt]
  · intro a ha
    rw [Memory.read_writeBlock _ _ _ _ hwf hin, if_neg (by rw [State.regBlock_length]; omega)]

/-- After `FX65` V[0] to V[X] are the bytes at I, and every other register is as before. -/
theorem reg_loadedBlock (x : Reg) (s : State) (k : Reg) :
    (s.setRegsFrom 0 (Memory.readBlock s.mem s.i.toNat (x.val + 1))).reg k =
      if k ≤ x then Memory.read s.mem (s.i.toNat + k.val) else s.reg k := by
  have hiff : (0 ≤ k.val ∧ k.val < 0 + (Memory.readBlock s.mem s.i.toNat (x.val + 1)).length) ↔ k ≤ x := by
    rw [Memory.readBlock_length, Fin.le_def]; omega
  rw [State.setRegsFrom_reg]
  by_cases hk : k ≤ x
  · have hlen : k.val < (Memory.readBlock s.mem s.i.toNat (x.val + 1)).length := by
      rw [Memory.readBlock_length]; exact Nat.lt_succ_of_le hk
    rw [if_pos (hiff.mpr hk), if_pos hk, Nat.sub_zero, List.getD_eq_getElem _ _ hlen, Memory.readBlock_getElem]
  · rw [if_neg (fun h => hk (hiff.mp h)), if_neg hk]

/-- Settles O40: the block written at I is V[0] to V[X]. -/
theorem registerBlockIsStored : Obligations.RegisterBlockIsStored := by
  intro x s hwf hi
  obtain ⟨hblock, houtside⟩ := read_storedBlock hwf hi
  exact ⟨_, exec_stRegs_inside hi, hblock, houtside, rfl⟩

/-- Settles O41: the registers written are V[0] to V[X], from the bytes at I. -/
theorem registerBlockIsLoaded : Obligations.RegisterBlockIsLoaded := by
  intro x s hi
  refine ⟨_, exec_ldRegs_inside hi, fun k hk => ?_, fun k hk => ?_, ?_, State.setRegsFrom_eq _ _ _⟩
  · rw [reg_loadedBlock, if_pos hk]
  · rw [reg_loadedBlock, if_neg (not_le.mpr hk)]
  · exact sameMemory_of_mem_eq (by rw [State.setRegsFrom_eq])

/-- Settles O43: the load reads the bytes at I, which the store set to the registers. -/
theorem storedBlockIsLoadedBack : Obligations.StoredBlockIsLoadedBack := by
  intro x s hwf hi
  refine ⟨_, exec_stRegs_inside hi, fun t' hi' hmem => ?_⟩
  refine ⟨_, exec_ldRegs_inside (by rwa [hi']), fun k hk => ?_⟩
  rw [reg_loadedBlock, if_pos hk, hmem, hi']
  exact (read_storedBlock hwf hi).1 k hk

/-- Settles O44: the fetch reads the two bytes at IP, which the store set to two registers. -/
theorem storeIsSeenByFetch : Obligations.StoreIsSeenByFetch := by
  intro x s hwf hi
  refine ⟨_, exec_stRegs_inside hi, fun t' k hk hmem hip => ?_⟩
  obtain ⟨hblock, -⟩ := read_storedBlock hwf hi
  have first := hblock ⟨k, by omega⟩ (Fin.le_def.mpr (by simp only; omega))
  have second := hblock ⟨k + 1, by omega⟩ (Fin.le_def.mpr hk)
  obtain ⟨-, he⟩ | ⟨hout, -⟩ := t'.fetch_cases
  · refine ⟨_, _, he, ?_⟩
    rw [wordOfBytes_toNat, hip, hmem, Nat.add_assoc]
    simp only [first, second]
  · omega

end Sys2Proof.Machine
end

section
/-! SUPPORT. Drawing (44_display.md R141, R142): the bit a sprite XORs into each cell, and with it the
closed form of one draw and of two. -/

namespace Sys2Proof.Machine

/-- Settles O47: the pixel's write is one `xorPixel`, and VF gets the cell read before it. -/
theorem setPixelXorsOneWrappedCell : Obligations.SetPixelXorsOneWrappedCell := fun s x y b px py =>
  ⟨Framebuffer.cell_xorPixel s.fb x y b px py, s.reg_setReg_self vf _⟩

/-! ### The sprite as bits on the screen -/

/-- The bit the sprite at (x0, y0) XORs into cell (px, py): as `State.drawRows_cell` has it. -/
def spriteMask (x0 y0 : Nat) (rows : List Byte) (px py : Nat) : Bool :=
  (List.range rows.length).any fun r => decide (py % 32 = (y0 + r) % 32) &&
    (List.range' 0 8).any fun k => decide (px % 64 = (x0 + k) % 64) && spriteBit (rows.getD r 0) k

theorem drawRows_cell_eq (s : State) (x0 y0 : Nat) {rows : List Byte} (h : rows.length ≤ 32)
    (px py : Nat) : Framebuffer.cell (s.drawRows x0 y0 rows).fb px py =
      (Framebuffer.cell s.fb px py ^^ spriteMask x0 y0 rows px py) :=
  State.drawRows_cell x0 rows y0 s px py h

theorem spriteMask_iff {x0 y0 : Nat} {rows : List Byte} {px py : Nat} :
    spriteMask x0 y0 rows px py = true ↔ ∃ r < rows.length, ∃ c < 8,
      px % 64 = (x0 + c) % 64 ∧ py % 32 = (y0 + r) % 32 ∧ spriteBit (rows.getD r 0) c = true := by
  simp only [spriteMask, List.any_eq_true, List.mem_range, List.mem_range'_1, Bool.and_eq_true,
    decide_eq_true_eq]
  constructor
  · rintro ⟨r, hr, hy, c, hc, hx, hbit⟩; exact ⟨r, hr, c, by omega, hx, hy, hbit⟩
  · rintro ⟨r, hr, c, hc, hx, hy, hbit⟩; exact ⟨r, hr, hy, c, by omega, hx, hbit⟩

/-- At most 32 rows and 8 columns wrap onto themselves nowhere, so a cell takes one bit of the sprite. -/
theorem spriteMask_covered (x0 y0 : Nat) {rows : List Byte} {r c : Nat} (hlen : rows.length ≤ 32)
    (hr : r < rows.length) (hc : c < 8) :
    spriteMask x0 y0 rows (x0 + c) (y0 + r) = spriteBit (rows.getD r 0) c := by
  rw [Bool.eq_iff_iff, spriteMask_iff]
  constructor
  · rintro ⟨r', hr', c', hc', hx, hy, hbit⟩
    obtain rfl : r' = r := by omega
    obtain rfl : c' = c := by omega
    exact hbit
  · exact fun hbit => ⟨r, hr, c, hc, rfl, rfl, hbit⟩

theorem spriteMask_uncovered {x0 y0 : Nat} {rows : List Byte} {px py : Nat}
    (h : ∀ r < rows.length, ∀ c < 8, ¬ (px % 64 = (x0 + c) % 64 ∧ py % 32 = (y0 + r) % 32)) :
    spriteMask x0 y0 rows px py = false := by
  rw [← Bool.not_eq_true, spriteMask_iff]
  rintro ⟨r, hr, c, hc, hx, hy, -⟩
  exact h r hr c hc ⟨hx, hy⟩

theorem readBlock_getD (m : Memory) (a : Nat) {r n : Nat} (h : r < n) :
    (Memory.readBlock m a n).getD r 0 = Memory.read m (a + r) := by
  have hr : r < (Memory.readBlock m a n).length := by rwa [Memory.readBlock_length]
  rw [List.getD_eq_getElem _ _ hr, Memory.readBlock_getElem]

/-! ### One draw -/

theorem exec_drw_inside {x y : Reg} {n : Nat} {s : State} (h : n = 0 ∨ s.i.toNat + n ≤ 0x1000) :
    exec (.drw x y n) s =
      .next (s.drawRows (s.reg x).toNat (s.reg y).toNat (Memory.readBlock s.mem s.i.toNat n)) := by
  obtain ⟨-, he⟩ | ⟨hne, hout, -⟩ := exec_drw_cases x y n s
  · exact he
  · omega

/-- VF after a draw of `n` rows, at least one: the old value of the cell under the last pixel. -/
theorem drawRows_flag_eq (s : State) (x0 y0 a : Nat) {n : Nat} (hn : 1 ≤ n) (hn' : n ≤ 15) :
    (s.drawRows x0 y0 (Memory.readBlock s.mem a n)).reg vf =
      flagByte (Framebuffer.cell s.fb (x0 + 7) (y0 + n - 1)) := by
  have hlen : (Memory.readBlock s.mem a n).length = n := Memory.readBlock_length n s.mem a
  have hne : Memory.readBlock s.mem a n ≠ [] := List.ne_nil_of_length_pos (by omega)
  rw [State.drawRows_flag x0 _ y0 s hne (by omega), hlen]

/-- Settles O48: a cell is XORed with the sprite's bit there, which is a row's bit on the sprite and 0
off it. -/
theorem drawXorsTheSprite : Obligations.DrawXorsTheSprite := by
  intro x y n s hn hin
  have hlen : (Memory.readBlock s.mem s.i.toNat n).length = n := Memory.readBlock_length n _ _
  have hrows : (Memory.readBlock s.mem s.i.toNat n).length ≤ 32 := by omega
  refine ⟨_, exec_drw_inside hin, fun r hr c hc => ?covered, fun px py hoff => ?uncovered,
    fun hpos => drawRows_flag_eq s _ _ _ hpos hn, ?noRows,
    fun r hr => State.drawRows_reg _ r hr _ _ s, ?memory, State.drawRows_eq _ _ _ _⟩
  case covered =>
    rw [drawRows_cell_eq s _ _ hrows, spriteMask_covered _ _ hrows (by omega) hc, readBlock_getD _ _ hr,
      spriteBit]
  case uncovered =>
    rw [drawRows_cell_eq s _ _ hrows, spriteMask_uncovered (by rwa [hlen]), Bool.xor_false]
  case noRows => rintro rfl; rfl
  case memory => exact sameMemory_of_mem_eq (by rw [State.drawRows_eq])

/-! ### Two draws -/

/-- Settles O49: both draws XOR the same bits, so they cancel; the second's flag is the last cell after
the first. -/
theorem drawingTwiceRestoresTheFramebuffer : Obligations.DrawingTwiceRestoresTheFramebuffer := by
  intro x y n s hpos hn hin
  have hrows : (Memory.readBlock s.mem s.i.toNat n).length ≤ 32 := by
    rw [Memory.readBlock_length]; omega
  refine ⟨_, exec_drw_inside (.inr hin), fun t' hfb hi hmem hx hy => ?_⟩
  refine ⟨_, exec_drw_inside (.inr (by rwa [hi])), ?restored, ?flag⟩
  case restored =>
    refine Framebuffer.ext_of_cell fun px py => ?_
    rw [hx, hy, hi, hmem, drawRows_cell_eq t' _ _ hrows, hfb, drawRows_cell_eq s _ _ hrows,
      Bool.xor_assoc, Bool.xor_self, Bool.xor_false]
  case flag =>
    have hlast : (s.reg y).toNat + n - 1 = (s.reg y).toNat + (n - 1) := by omega
    have hrow : s.i.toNat + n - 1 = s.i.toNat + (n - 1) := by omega
    rw [hx, hy, hi, drawRows_flag_eq t' _ _ _ hpos hn, hfb, drawRows_cell_eq s _ _ hrows, hlast, hrow,
      spriteMask_covered _ _ hrows (by rw [Memory.readBlock_length]; omega) (by decide),
      readBlock_getD _ _ (by omega), spriteBit, flagByte]

end Sys2Proof.Machine
end

section
/-! SUPPORT. The keypad (45_keypad_timers.md R150 to R152): the key skips, and the first poll of `FX0A`. -/

namespace Sys2Proof.Machine

/-- Settles O50: with VX naming a line each is a `skipIf` on that line; otherwise the fault is raised. -/
theorem keySkipsTestTheLatch : Obligations.KeySkipsTestTheLatch := by
  intro x s
  have hinfo : (s.reg x).setWidth 32 = BitVec.ofNat 32 (s.reg x).toNat := (BitVec.ofNat_toNat ..).symm
  constructor
  · intro h
    obtain ⟨-, hskp⟩ | ⟨hout, -⟩ := exec_skp_cases x s
    · obtain ⟨-, hsknp⟩ | ⟨hout, -⟩ := exec_sknp_cases x s
      · rw [hskp, hsknp, State.skipIf_eq, State.skipIf_eq]
        cases s.k.getLsbD (s.reg x).toNat <;> exact ⟨rfl, rfl⟩
      · omega
    · omega
  · intro h
    obtain ⟨hin, -⟩ | ⟨-, hskp⟩ := exec_skp_cases x s
    · omega
    · obtain ⟨hin, -⟩ | ⟨-, hsknp⟩ := exec_sknp_cases x s
      · omega
      · rw [hskp, hsknp, keyIndexFault, hinfo]; exact ⟨rfl, rfl⟩

theorem exec_ldVxK (x : Reg) (s : State) : exec (.ldVxK x) s = .next (s.awaitKey x) := rfl

/-- With a line down `FX0A` is one `setReg` of its number. -/
theorem State.awaitKey_of_key {s : State} (x : Reg) (h : s.k ≠ 0) :
    s.awaitKey x = s.setReg x (firstDown s.k) := if_neg h

theorem State.awaitKey_of_no_key {s : State} (x : Reg) (h : s.k = 0) :
    s.awaitKey x = { s with wait := true, wx := x } := if_pos h

/-- Settles O51: FirstDown is the lowest line of the latch, and its number fits a byte. -/
theorem keyWaitCompletesOrWaits : Obligations.KeyWaitCompletesOrWaits := by
  intro x s
  refine ⟨fun hk => ?_, fun hk => by rw [exec_ldVxK, State.awaitKey_of_no_key x hk]⟩
  obtain ⟨j, hj, hdown, hlow⟩ := firstDown_spec s.k hk
  refine ⟨s.setReg x (firstDown s.k), j, by rw [exec_ldVxK, State.awaitKey_of_key x hk], ⟨hdown, hlow⟩, ?_,
    fun r hr => s.reg_setReg_ne _ hr, fun _ => rfl, rfl⟩
  rw [State.reg_setReg_self, hj, BitVec.toNat_ofNat, Nat.mod_eq_of_lt (by omega)]

end Sys2Proof.Machine
end
